-- ==== Sys2Proof/Word.lean ====
section
/-! DEFINITION. The widths of the block (spec/00_scope.md R5, R7; spec/30_encoding.md R30). Every value is an unsigned bit
vector of a stated width, bit 0 the least significant; no value is signed. -/

namespace Sys2Proof

/-- `DATA_W` = 8: one data item (R5, R24). -/
abbrev Byte := BitVec 8

/-- `CRC_W` = 16: the width of the register `crc` (R5, R10). -/
abbrev Crc := BitVec 16

/-- `CMD_W` = 2: the command field `cmd` (R5, R30). -/
abbrev CmdCode := BitVec 2

/-- The command word `cw = {cmd, din}`, 10 bits (R30). -/
abbrev CmdWord := BitVec 10

end Sys2Proof
end

