-- ==== Sys2Proof/Config.lean ====
section
/-! DEFINITION. The fixed values of the block (spec/00_scope.md R5). "The block has no parameter that a model takes as an
argument: every value below is fixed", so these are constants, and no rule leaves a value free, so there is no opaque one.
The polynomial, like the bit order, the byte order and the absence of an inversion, is the spec's decision D6, D7, D9 from
general knowledge; log entry 8 says that the model keeps them constant. -/

namespace Sys2Proof.Config

/-- `CRC_A_PRESET`, loaded by INIT and by reset (R5, R41, R70). -/
def crcAPreset : Crc := 0x6363#16

/-- The generator polynomial x^16 + x^12 + x^5 + 1, bit `i` the coefficient of x^i (R5, D6). -/
def generatorPoly : BitVec 17 := 0x11021#17

/-- `POLY_REFLECTED`, the polynomial as the bit-serial form uses it (R5, R43). -/
def polyReflected : Crc := 0x8408#16

end Sys2Proof.Config
end

