-- ==== Sys2Proof/Syntax.lean ====
section
/-! DEFINITION. The commands (spec/30_encoding.md R31, R38; spec/opcode_table.json): one constructor per row of the opcode
table. `din` is an operand of UPD only (R32); for the other rows it is ignored and not kept (R34), so their constructors
carry nothing. The reset beat RST is no command word (R36) and therefore no constructor. -/

namespace Sys2Proof

/-- A decoded command, `Decode`'s result in R38. -/
inductive Instr where
  /-- R40 -/
  | nop
  /-- R41 -/
  | init
  /-- R42 -/
  | upd (din : Byte)
  /-- `cmd = 0b11`: decodes, has no meaning and no canonical word (R33) -/
  | reserved
  deriving DecidableEq, Repr

/-- The row's name in spec/opcode_table.json. -/
def Instr.mnemonic : Instr → String
  | .nop => "NOP"
  | .init => "INIT"
  | .upd _ => "UPD"
  | .reserved => "RESERVED"

/-- One row of the opcode map of R31. -/
structure OpcodeRow where
  mnemonic : String
  /-- the column "match" -/
  pattern : CmdWord
  mask : CmdWord
  usesDin : Bool
  deriving DecidableEq, Repr

end Sys2Proof
end

