-- ==== Sys2Proof/WellFormed.lean ====
section
/-! DEFINITION. Which decoded commands a host may ask for: all but the reserved one (spec/30_encoding.md R33, R38; R79 "the
host is assumed never to present cmd = 0b11 with rst = 0"). Every value of `din` is legal data (R32), so UPD has no check. -/

namespace Sys2Proof

/-- The one check: the command is not the reserved one. -/
def wellFormed : Instr → Bool
  | .nop => true
  | .init => true
  | .upd _ => true
  | .reserved => false

end Sys2Proof
end

