-- ==== Sys2Proof/Decode.lean ====
section
/-! DEFINITION. Command words: the fields of R30, the opcode map of R31, the decoder and the canonical encoder of R38
(spec/30_encoding.md). Decoding is total on the 1024 command words; a number that is no command word is rejected by name. -/

namespace Sys2Proof

/-- `cw[9:8]` (R30). -/
def cmdField (w : CmdWord) : CmdCode := w.extractLsb' 8 2

/-- `cw[7:0]` (R30, R32): taken as it stands. -/
def dinField (w : CmdWord) : Byte := w.extractLsb' 0 8

/-- `cw = {cmd, din}` (R30). -/
def commandWord (cmd : CmdCode) (din : Byte) : CmdWord := cmd ++ din

/-- `Decode` of R38: the command is selected by `cmd` alone. -/
def decode (w : CmdWord) : Instr :=
  if cmdField w = 0b00#2 then .nop
  else if cmdField w = 0b01#2 then .init
  else if cmdField w = 0b10#2 then .upd (dinField w)
  else .reserved

/-- `Encode` of R38: the canonical word. The reserved command has none. -/
def encode : Instr → Option CmdWord
  | .nop => some 0x000#10
  | .init => some 0x100#10
  | .upd din => some (0x200#10 ||| din.setWidth 10)
  | .reserved => none

/-- The canonical words of R38: a UPD word, or a NOP or INIT word with `din` = 0 (R34). -/
def canonical (w : CmdWord) : Bool :=
  cmdField w == 0b10#2 || (dinField w == 0x00#8 && cmdField w != 0b11#2)

/-- The table of R31, row by row. -/
def opcodeTable : List OpcodeRow :=
  [⟨"NOP", 0x000#10, 0x300#10, false⟩,
   ⟨"INIT", 0x100#10, 0x300#10, false⟩,
   ⟨"UPD", 0x200#10, 0x300#10, true⟩,
   ⟨"RESERVED", 0x300#10, 0x300#10, false⟩]

/-- "A command word `w` selects a row when `(w & mask) == match`" (R31). -/
def OpcodeRow.selects (r : OpcodeRow) (w : CmdWord) : Bool := w &&& r.mask == r.pattern

/-- Why a number is not decoded. -/
inductive DecodeError where
  /-- the number needs more than the ten bits of a command word (log entry 6) -/
  | notACommandWord
  deriving DecidableEq, Repr

/-- A number read as a command word: the word has exactly ten bits (R30), so a number with a higher bit set is none. -/
def decodeNumber (w : Nat) : Except DecodeError Instr :=
  if w < 1024 then .ok (decode (BitVec.ofNat 10 w)) else .error .notACommandWord

/-- The host's question in the numbering of spec/opcode_table.json; the block has one word and stores no bytes, so the bits
are the command word's own. -/
def decodeTableWord (nbits w : Nat) : Option Instr :=
  match decodeNumber (w % 2 ^ nbits) with
  | .ok i => some i
  | .error .notACommandWord => none

end Sys2Proof
end

