-- ==== Sys2Proof/Machine/State.lean ====
section
/-! DEFINITION. State (spec/10_state.md R10 to R18). The block's whole state is the register `crc`; beside it stands what the
host has still to present, because a step takes one beat from the host (R6, R78). -/

namespace Sys2Proof.Machine

/-- What the host presents on one beat: the triple `(rst, cmd, din)` of R78, the inputs of R18. -/
structure Beat where
  rst : Bool
  cmd : CmdCode
  din : Byte
  deriving DecidableEq, Repr

/-- A point of a run (R78): the block's register, and the beats still to come. -/
structure State where
  /-- the block's only register (R10, R16) -/
  crc : Crc
  /-- the host's beats not yet presented, the next one first; inputs, not state of the block (R18; log entry 1) -/
  beats : List Beat
  deriving DecidableEq, Repr

/-- No constructor: "A model of the block therefore has no fault outcome at all" (spec/60_exceptions.md R67). -/
inductive Fault where
  deriving DecidableEq, Repr

/-- Why a step has no successor. -/
inductive Refusal where
  /-- Raised by no meaning: every command has one. The constructor is part of the host's interface. Safe. -/
  | notModelled (mnemonic : String)
  /-- Raised by a beat with `rst` = 0 and `cmd = 0b11` (spec/30_encoding.md R33: "A model must refuse"). Safe: hardware goes
  on with any `crc`, the model proves nothing about it (log entry 5). -/
  | reservedCommand
  deriving DecidableEq, Repr

/-- After reset `crc` = 0x6363 (spec/70_reset_and_hazards.md R70). No beat is listed: which beats follow is the host's
(log entry 3). -/
def State.reset : State := { crc := Config.crcAPreset, beats := [] }

end Sys2Proof.Machine
end

