-- ==== Sys2Proof/Machine/Operands.lean ====
section
/-! DEFINITION. What goes in and out on the ports: a beat's command word (spec/30_encoding.md R30), the beat that presents a
given word (R36), and the two outputs (spec/10_state.md R15). The only operand is `din`, read by the decoder (R32). -/

namespace Sys2Proof.Machine

/-- The command word on the ports, `{cmd, din}`; `rst` is not part of it (R30). -/
def Beat.word (b : Beat) : CmdWord := commandWord b.cmd b.din

/-- The beat on which `rst` = 0 and the ports carry `w`. -/
def Beat.ofWord (w : CmdWord) : Beat := { rst := false, cmd := cmdField w, din := dinField w }

/-- A beat on which `rst` = 1 and the ports carry `w`: `cmd` and `din` are don't-care on it (R36, R70). -/
def Beat.resetWith (w : CmdWord) : Beat := { rst := true, cmd := cmdField w, din := dinField w }

/-- The reset beat `RST` with the word 0, as test programs write it (R36). -/
def Beat.resetBeat : Beat := { rst := true, cmd := 0b00#2, din := 0x00#8 }

/-- The output `crc_b0 = crc[7:0]`, the first byte transmitted (R15, R23). -/
def crcB0 (s : State) : Byte := lowByte s.crc

/-- The output `crc_b1 = crc[15:8]`, the second byte transmitted (R15, R23). -/
def crcB1 (s : State) : Byte := highByte s.crc

/-- What is observed of a state: the pair `(crc_b0, crc_b1)` (spec/70_reset_and_hazards.md R78). -/
def outputs (s : State) : Byte × Byte := (crcB0 s, crcB1 s)

end Sys2Proof.Machine
end

