-- ==== Sys2Proof/Machine/Flags.lean ====
section
/-! DEFINITION. The flag computations: none. "The block has no status flag, condition code or predicate. No command sets one
as a side effect" (spec/10_state.md R13), so this file defines nothing. -/
end

