-- ==== Sys2Proof/Machine/Commands.lean ====
section
/-! DEFINITION. The meanings of the commands (spec/40_commands.md R40 to R42, spec/30_encoding.md R33). Each is run on a beat
with `rst` = 0, after the beat has been taken; a meaning writes `crc` and nothing else. -/

namespace Sys2Proof.Machine

/-- NOP: `crc <- crc` (R40). -/
def execNop (s : State) : Host.Outcome State Fault Refusal := .next (s.setCrc s.crc)

/-- INIT: `crc <- 0x6363` (R41). -/
def execInit (s : State) : Host.Outcome State Fault Refusal := .next s.presetCrc

/-- UPD: `crc <- CrcAStep(crc, din)` (R42). -/
def execUpd (din : Byte) (s : State) : Host.Outcome State Fault Refusal := .next (s.absorb din)

/-- The reserved command: refused, in every state (R33). -/
def execReserved (_s : State) : Host.Outcome State Fault Refusal := .refused .reservedCommand

end Sys2Proof.Machine
end

