-- ==== Sys2Proof/Machine/Beats.lean ====
section
/-! DEFINITION. One beat (spec/70_reset_and_hazards.md R70, R77): reset outranks the command (R62); otherwise the command word
is decoded and its meaning run. Also how a word comes to be the next one presented. -/

namespace Sys2Proof.Machine

/-- The reset beat: `crc <- 0x6363` "and does nothing else" (R70). -/
def execReset (s : State) : Host.Outcome State Fault Refusal := .next s.presetCrc

/-- One beat on a state from which it has been taken: with `rst` = 1 the word is not decoded (R70). -/
def execBeat (b : Beat) (s : State) : Host.Outcome State Fault Refusal :=
  if b.rst then execReset s else exec (decode b.word) s

/-- No beat presented: the block is not clocked and "keeps `crc`" (spec/60_exceptions.md R66; log entry 2). -/
def idle (s : State) : Host.Outcome State Fault Refusal := .next s

/-- The next beat of the host, or none. -/
def runNextBeat (s : State) : Host.Outcome State Fault Refusal :=
  match s.beats with
  | [] => idle s
  | b :: _ => execBeat b s.dropBeat

/-- The host presents the number `w`, cut to `nbits` bits, as the command word of the very next beat, with `rst` = 0. The
port has ten wires; a higher bit has none (log entry 6). -/
def presentNumber (s : State) (nbits w : Nat) : State :=
  s.present (Beat.ofWord (BitVec.ofNat 10 (w % 2 ^ nbits)))

end Sys2Proof.Machine
end

