-- ==== Sys2Proof/Machine/Step.lean ====
section
/-! DEFINITION. The step: one beat of the host (spec/70_reset_and_hazards.md R70, R77, R78). -/

namespace Sys2Proof.Machine

/-- One step of a run. -/
def step (s : State) : Host.Outcome State Fault Refusal := runNextBeat s

/-- The block fetches nothing (spec/10_state.md R12): a word "stored where the step fetches" is the word the host presents on
the next beat (log entry 6). -/
def State.withFetchWord (s : State) (nbits w : Nat) : State := presentNumber s nbits w

end Sys2Proof.Machine
end

