-- ==== Sys2Proof/Machine/Runs.lean ====
section
/-! DEFINITION. Runs and what is observed of them (spec/70_reset_and_hazards.md R78). -/

namespace Sys2Proof.Machine

/-- `n` steps, ending at the first refusal (R78: "refused from that beat on"). -/
def run (n : Nat) (s : State) : Host.Outcome State Fault Refusal := Sys2Proof.core.run n s

/-- The outputs seen during each of the next `n` steps, then those at the end. During a beat they show `crc` as it stands at
the beat's start (spec/10_state.md R15); after a refused beat nothing is seen. -/
def trace : Nat → State → List (Byte × Byte)
  | 0, s => [outputs s]
  | n + 1, s =>
    outputs s :: (match step s with
      | .next t => trace n t
      | .fault _ => []
      | .refused _ => [])

end Sys2Proof.Machine
end

