-- ==== Sys2Proof/Machine/Messages.lean ====
section
/-! DEFINITION. Whole messages (spec/41_sequences.md R50 to R57) and what a beat means for the message being absorbed
(spec/70_reset_and_hazards.md R71, R72, R76). -/

namespace Sys2Proof.Machine

/-- The bytes of `buf` absorbed in index order from the register value `c` (R56: the fold "started from" a given value). -/
def absorbAll (c : Crc) (buf : List Byte) : Crc := buf.foldl crcAStep c

/-- `CrcA(buf)` (R50). For the empty buffer it is a value of the hardware only (R55; log entry 10). -/
def crcA (buf : List Byte) : Crc := absorbAll Config.crcAPreset buf

/-- `CrcABytes(buf) = (byte0, byte1)`, the document's `computeCrcA` (R50). -/
def crcABytes (buf : List Byte) : Byte × Byte := (lowByte (crcA buf), highByte (crcA buf))

/-- `Frame(buf) = buf ++ [byte0, byte1]` (R53). -/
def frame (buf : List Byte) : List Byte := buf ++ [(crcABytes buf).1, (crcABytes buf).2]

/-- What a beat asks of the block. -/
inductive BeatEvent where
  /-- a NOP: nothing changes (R40) -/
  | hold
  /-- INIT or reset: a new message begins (R41, R70, R76) -/
  | preset
  /-- UPD: the byte joins the message (R42) -/
  | absorb (b : Byte)
  /-- the reserved word with `rst` = 0 (R33) -/
  | refuse
  deriving DecidableEq, Repr

/-- A beat's event. -/
def Beat.event (b : Beat) : BeatEvent :=
  if b.rst then .preset
  else match decode b.word with
    | .nop => .hold
    | .init => .preset
    | .upd d => .absorb d
    | .reserved => .refuse

/-- The events of a list of beats with its NOP beats left out: NOPs may stand anywhere (R40, R51). -/
def activeEvents (bs : List Beat) : List BeatEvent := (bs.map Beat.event).filter (· != .hold)

/-- Steps (1) and (2) of R71: INIT or a reset beat, then one UPD for each byte in index order, with no other UPD; NOPs
anywhere. -/
def presentsMessage (buf : List Byte) (bs : List Beat) : Bool :=
  activeEvents bs == .preset :: buf.map .absorb

/-- Step (2) of R71 alone, for the first message after a reset and for a host that forgets step (1) (R72). -/
def presentsBytes (buf : List Byte) (bs : List Beat) : Bool :=
  activeEvents bs == buf.map .absorb

/-- The message being absorbed after the given beats, if `m` was being absorbed before them: INIT and reset begin a new one
and abandon the old (R76); UPD adds its byte (R72: also without an INIT). -/
def messageAfter (m : List Byte) : List Beat → List Byte
  | [] => m
  | b :: bs =>
    match b.event with
    | .hold => messageAfter m bs
    | .preset => messageAfter [] bs
    | .absorb d => messageAfter (m ++ [d]) bs
    | .refuse => messageAfter m bs

/-- The beats of `INIT; UPD buf[0]; ...; UPD buf[n-1]` in canonical words (R51, R36). -/
def messageBeats (buf : List Byte) : List Beat :=
  Beat.ofWord 0x100#10 :: buf.map (fun b => Beat.ofWord (0x200#10 ||| b.setWidth 10))

end Sys2Proof.Machine
end

