-- ==== Sys2Proof/Machine/Assembler.lean ====
section
/-! DEFINITION. The assembler syntax and the pseudo-instructions (spec/30_encoding.md R36, R37). Text is a list of characters.
What R36 leaves open about blanks, that only the upper-case spelling is read, and how a word listed beside RST is given, is
log entry 7. -/

namespace Sys2Proof.Machine

/-- One line of a listing. -/
inductive AsmLine where
  /-- nothing but blanks and a comment -/
  | blank
  | nop
  | init
  | upd (b : Byte)
  /-- not a command word: a beat on which `rst` = 1 (R36); a word listed beside it is no part of the line (log entry 7) -/
  | rst
  /-- `CRCA`, with no byte or more (R37) -/
  | crca (buf : List Byte)
  /-- `FRAME`, one byte or more (R37) -/
  | frame (buf : List Byte)
  /-- `CHECK`, one byte or more and the two received CRC bytes (R37) -/
  | check (buf : List Byte) (c0 c1 : Byte)
  deriving DecidableEq, Repr

/-- The lines R37 has a form for: FRAME and CHECK cover at least one byte. -/
def AsmLine.wellFormed : AsmLine → Bool
  | .blank => true
  | .nop => true
  | .init => true
  | .upd _ => true
  | .rst => true
  | .crca _ => true
  | .frame buf => !buf.isEmpty
  | .check buf _ _ => !buf.isEmpty

/-- The beats a line stands for by itself (R36, R37). DESIGN CHOICE (log entry 7): the line `RST` alone presents the word 0,
as test programs write it; R36's exception, a word "listed beside `RST`", has no spelling in a line and is
`AsmLine.beatsBeside`. -/
def AsmLine.beats : AsmLine → List Beat
  | .blank => []
  | .nop => [Beat.ofWord 0x000#10]
  | .init => [Beat.ofWord 0x100#10]
  | .upd b => [Beat.ofWord (0x200#10 ||| b.setWidth 10)]
  | .rst => [Beat.resetBeat]
  | .crca buf => messageBeats buf
  | .frame buf => messageBeats buf
  | .check buf c0 c1 => messageBeats (buf ++ [c0, c1])

/-- The beats of a line with a command word listed beside it, outside the line's text (R36; spec/95_test_vectors.md B8, B9
and P5 beat 2). DESIGN CHOICE (log entry 7): R36 gives that word no line spelling, so it is an argument here; it counts beside
`RST` only, since every other line has its words already. -/
def AsmLine.beatsBeside (l : AsmLine) (listed : Option CmdWord) : List Beat :=
  if l = .rst then [Beat.resetWith (listed.getD 0x000#10)] else l.beats

/-- The beats of a listing, line after line; beats are numbered from 0 (R36). -/
def listingBeats (ls : List AsmLine) : List Beat := ls.flatMap AsmLine.beats

/-- The line for a command; the reserved command has no assembly form (R36). -/
def asmOf : Instr → Option AsmLine
  | .nop => some .nop
  | .init => some .init
  | .upd d => some (.upd d)
  | .reserved => none

/-- The upper-case hexadecimal digits (R36). -/
def hexDigits : List Char :=
  ['0', '1', '2', '3', '4', '5', '6', '7', '8', '9', 'A', 'B', 'C', 'D', 'E', 'F']

/-- The digit of a nibble. -/
def hexDigit (n : BitVec 4) : Char := hexDigits.getD n.toNat '0'

/-- The nibble of a digit, if it is one. -/
def readHexDigit (c : Char) : Option (BitVec 4) :=
  (hexDigits.findIdx? (· == c)).map (BitVec.ofNat 4)

/-- `0xNN` (R36). -/
def byteText (b : Byte) : List Char :=
  ['0', 'x', hexDigit (b.extractLsb' 4 4), hexDigit (b.extractLsb' 0 4)]

/-- A byte read from `0xNN`. -/
def readByte : List Char → Option Byte
  | ['0', 'x', h, l] =>
    match readHexDigit h, readHexDigit l with
    | some h, some l => some (h ++ l)
    | _, _ => none
  | _ => none

/-- All bytes of a list of words, if each is one. -/
def readBytes : List (List Char) → Option (List Byte)
  | [] => some []
  | t :: ts =>
    match readByte t, readBytes ts with
    | some b, some bs => some (b :: bs)
    | _, _ => none

/-- A line's words: the mnemonic, then the bytes (R36, R37). -/
def AsmLine.words : AsmLine → List (List Char)
  | .blank => []
  | .nop => [['N', 'O', 'P']]
  | .init => [['I', 'N', 'I', 'T']]
  | .upd b => [['U', 'P', 'D'], byteText b]
  | .rst => [['R', 'S', 'T']]
  | .crca buf => ['C', 'R', 'C', 'A'] :: buf.map byteText
  | .frame buf => ['F', 'R', 'A', 'M', 'E'] :: buf.map byteText
  | .check buf c0 c1 => ['C', 'H', 'E', 'C', 'K'] :: (buf ++ [c0, c1]).map byteText

/-- Words with one blank between them. -/
def joinWords : List (List Char) → List Char
  | [] => []
  | [t] => t
  | t :: t' :: ts => t ++ ' ' :: joinWords (t' :: ts)

/-- A line as text. -/
def AsmLine.text (l : AsmLine) : List Char := joinWords l.words

/-- The words of a text, cut at blanks; `cur` is the word being read. -/
def splitWords : List Char → List Char → List (List Char)
  | [], cur => if cur.isEmpty then [] else [cur]
  | c :: cs, cur =>
    if c = ' ' then (if cur.isEmpty then splitWords cs [] else cur :: splitWords cs [])
    else splitWords cs (cur ++ [c])

/-- CHECK's bytes: at least one covered byte, then two CRC bytes. -/
def readCheck (bs : List Byte) : Option AsmLine :=
  match bs.reverse with
  | c1 :: c0 :: b :: rest => some (.check (b :: rest).reverse c0 c1)
  | _ => none

/-- The line that the words spell, if any (R36, R37). -/
def readWords : List (List Char) → Option AsmLine
  | [] => some .blank
  | m :: ts =>
    match readBytes ts with
    | none => none
    | some bs =>
      if m = ['N', 'O', 'P'] then (if bs.isEmpty then some .nop else none)
      else if m = ['I', 'N', 'I', 'T'] then (if bs.isEmpty then some .init else none)
      else if m = ['R', 'S', 'T'] then (if bs.isEmpty then some .rst else none)
      else if m = ['U', 'P', 'D'] then
        (match bs with
          | [b] => some (.upd b)
          | _ => none)
      else if m = ['C', 'R', 'C', 'A'] then some (.crca bs)
      else if m = ['F', 'R', 'A', 'M', 'E'] then (if bs.isEmpty then none else some (.frame bs))
      else if m = ['C', 'H', 'E', 'C', 'K'] then readCheck bs
      else none

/-- A line read from text: a comment starts with `;` (R36). -/
def readLine (text : List Char) : Option AsmLine :=
  readWords (splitWords (text.takeWhile (· != ';')) [])

/-- The beats of a listing given as lines of text (R36: one command per line). -/
def assemble : List (List Char) → Option (List Beat)
  | [] => some []
  | t :: ts =>
    match readLine t, assemble ts with
    | some l, some bs => some (l.beats ++ bs)
    | _, _ => none

end Sys2Proof.Machine
end

