-- ==== Sys2Proof/Safety.lean ====
section
/-! DEFINITION. What counts as a safe run, and the invariant of runs (spec/70_reset_and_hazards.md R71, R78, R79). -/

namespace Sys2Proof.Machine

/-- What the host is assumed to keep on one beat: never `cmd = 0b11` with `rst` = 0 (R79). -/
def Beat.accepted (b : Beat) : Bool := b.rst || b.cmd != 0b11#2

/-- A safe state: no beat still to come is refused. -/
def State.safe (s : State) : Bool := s.beats.all Beat.accepted

/-- The invariant of a run that began with the message `m0` in the register and the beats `bs0` to come: some of those beats
are done, the rest are still to come, none done was refused, and `crc` is `CrcA` of the message they leave in progress (R17,
R56, R72, R76: the register holds the CRC of the bytes since the last INIT or reset, and remembers nothing else). -/
def TracksMessage (m0 : List Byte) (bs0 : List Beat) (s : State) : Prop :=
  ∃ done : List Beat, bs0 = done ++ s.beats ∧ done.all Beat.accepted = true ∧ s.crc = crcA (messageAfter m0 done)

end Sys2Proof.Machine
end

