-- ==== Sys2Proof/Certificates/Slice0/Obligations.lean ====
section
/-! DEFINITION. The statements for the provers. The beats a state holds are the list of beats of spec R78 (log entry 1). -/

open Sys2Proof Sys2Proof.Machine

/-! ## The command word -/

/-- R31, R38 (spec/95_test_vectors.md 4.3): words written out bit by bit decode to the command they stand for. -/
def Obligations.DecodeReadsWordsOfEveryCommand : Prop :=
  decode 0b0000000000#10 = .nop ∧ decode 0b0011111111#10 = .nop ∧
  decode 0b0100000000#10 = .init ∧ decode 0b0101100011#10 = .init ∧
  decode 0b1000010010#10 = .upd 0x12#8 ∧ decode 0b1011111111#10 = .upd 0xFF#8 ∧
  decode 0b1100000000#10 = .reserved ∧ decode 0b1111111111#10 = .reserved

/-- R31: the table; every word selects exactly one row, and decodes to that row's command; 256 words a row, one UPD word
for each data byte. -/
def Obligations.EveryWordSelectsExactlyItsTableRow : Prop :=
  opcodeTable = [⟨"NOP", 0x000#10, 0x300#10, false⟩, ⟨"INIT", 0x100#10, 0x300#10, false⟩,
    ⟨"UPD", 0x200#10, 0x300#10, true⟩, ⟨"RESERVED", 0x300#10, 0x300#10, false⟩] ∧
  (∀ (r : OpcodeRow) (w : CmdWord), r.selects w = true ↔ w &&& r.mask = r.pattern) ∧
  (∀ w : CmdWord, (opcodeTable.filter (fun r => r.selects w)).map OpcodeRow.mnemonic = [(decode w).mnemonic]) ∧
  (∀ m ∈ opcodeTable.map OpcodeRow.mnemonic,
    ((List.range 1024).filter (fun n => (decode (BitVec.ofNat 10 n)).mnemonic == m)).length = 256) ∧
  (∀ d : Byte, ∃! w : CmdWord, decode w = .upd d) ∧
  decode 0x100#10 = .init ∧ decode 0x212#10 = .upd 0x12#8 ∧ decode 0x2FF#10 = .upd 0xFF#8 ∧ decode 0x000#10 = .nop

/-- R38: `Decode` case by case, `Encode`'s words; decoding an encoded command gives it back for every well-formed (that is,
non-reserved) command with every operand; re-encoding a decoded word gives the word exactly when it is canonical, and the
canonical words are those R38 names. The round trips are the spec's own derivation from R31 and R34. -/
def Obligations.DecodeAndEncodeAgree : Prop :=
  (∀ d : Byte, decode (commandWord 0b00#2 d) = .nop ∧ decode (commandWord 0b01#2 d) = .init ∧
    decode (commandWord 0b10#2 d) = .upd d ∧ decode (commandWord 0b11#2 d) = .reserved) ∧
  encode .nop = some 0x000#10 ∧ encode .init = some 0x100#10 ∧
  (∀ d : Byte, encode (.upd d) = some (commandWord 0b10#2 d)) ∧
  (∀ i : Instr, wellFormed i = true ↔ i ≠ .reserved) ∧
  (∀ i : Instr, wellFormed i = true ↔ ∃ w, encode i = some w) ∧
  (∀ (i : Instr) (w : CmdWord), encode i = some w →
    decode w = i ∧ canonical w = true ∧ ∀ nbits, 10 ≤ nbits → decodeTableWord nbits w.toNat = some i) ∧
  (∀ w : CmdWord, encode (decode w) = some w ↔ canonical w = true) ∧
  (∀ (c : CmdCode) (d : Byte), canonical (commandWord c d) = true ↔ c = 0b10#2 ∨ (d = 0x00#8 ∧ c ≠ 0b11#2))

/-- R34, R40, R41: all 256 NOP words and all 256 INIT words behave alike, in every state and whatever beats follow, and the
canonical spelling has `din` = 0. -/
def Obligations.NopAndInitIgnoreDin : Prop :=
  (∀ d d' : Byte, decode (commandWord 0b00#2 d) = decode (commandWord 0b00#2 d') ∧
    decode (commandWord 0b01#2 d) = decode (commandWord 0b01#2 d')) ∧
  (∀ (c : CmdCode) (d d' : Byte) (v : Crc) (bs : List Beat), c = 0b00#2 ∨ c = 0b01#2 →
    step { crc := v, beats := ⟨false, c, d⟩ :: bs } = step { crc := v, beats := ⟨false, c, d'⟩ :: bs }) ∧
  encode .nop = some (commandWord 0b00#2 0x00#8) ∧ encode .init = some (commandWord 0b01#2 0x00#8) ∧
  encode .nop = some 0x000#10 ∧ encode .init = some 0x100#10

/-! ## The step -/

/-- R6, R27, R29: on a beat with `rst` = 0 the step is the meaning of the command the presented word decodes to, run on the
state from which the beat has been taken; and a word presented next (log entry 6) is the one that runs. -/
def Obligations.StepRunsTheDecodedCommand : Prop :=
  (∀ (s : State) (b : Beat) (bs : List Beat), s.beats = b :: bs → b.rst = false →
    step s = exec (decode (commandWord b.cmd b.din)) { s with beats := bs }) ∧
  (∀ (s : State) (nbits w : Nat) (i : Instr), decodeTableWord nbits w = some i →
    step (s.withFetchWord nbits w) = exec i s)

/-- R70: `Step(crc, rst, cmd, din)`, clause by clause, for every state and every beat; reset and INIT write the same value;
after reset every piece of state has its stated value. -/
def Obligations.StepFollowsTheCompleteStepRule : Prop :=
  (∀ (s : State) (b : Beat) (bs : List Beat), s.beats = b :: bs →
    step s =
      if b.rst = true then .next { crc := 0x6363#16, beats := bs }
      else if b.cmd = 0b00#2 then .next { crc := s.crc, beats := bs }
      else if b.cmd = 0b01#2 then .next { crc := 0x6363#16, beats := bs }
      else if b.cmd = 0b10#2 then .next { crc := crcAStep s.crc b.din, beats := bs }
      else .refused .reservedCommand) ∧
  (∀ (c : Crc) (r : Bool) (m : CmdCode) (d : Byte) (bs : List Beat),
    step { crc := c, beats := ⟨r, m, d⟩ :: bs } =
      match blockStep c r m d with
      | some c' => .next { crc := c', beats := bs }
      | none => .refused .reservedCommand) ∧
  (∀ (c : CmdCode) (d d' : Byte) (v : Crc) (bs : List Beat),
    step { crc := v, beats := ⟨true, c, d⟩ :: bs } = step { crc := v, beats := ⟨false, 0b01#2, d'⟩ :: bs }) ∧
  State.reset.crc = 0x6363#16 ∧ crcB0 State.reset = 0x63#8 ∧ crcB1 State.reset = 0x63#8

/-- R62, R70: reset wins over every command word, the reserved one too; no value on the command port changes what it does. -/
def Obligations.ResetOverridesEveryCommand : Prop :=
  (∀ (s : State) (c : CmdCode) (d : Byte) (bs : List Beat), s.beats = ⟨true, c, d⟩ :: bs →
    step s = .next { crc := 0x6363#16, beats := bs }) ∧
  (∀ (c c' : CmdCode) (d d' : Byte) (v v' : Crc) (bs : List Beat),
    step { crc := v, beats := ⟨true, c, d⟩ :: bs } = step { crc := v', beats := ⟨true, c', d'⟩ :: bs })

/-- The model's choice (log entry 2): with no beat to come a step changes nothing, so a run never ends by itself and the
result stays on the outputs. -/
def Obligations.StepWithoutABeatHoldsEverything : Prop :=
  ∀ (s : State) (n : Nat), s.beats = [] → run n s = .next s ∧ trace n s = List.replicate (n + 1) (outputs s)

/-- R27, R77: a step takes exactly one beat, and what earlier beats do does not depend on later ones: the later beats start
from the register the earlier ones wrote. -/
def Obligations.CommandsTakeEffectInOrderOneABeat : Prop :=
  (∀ s t : State, step s = .next t → t.beats = s.beats.tail) ∧
  (∀ (c : Crc) (bs bs' : List Beat) (t : State) (n : Nat),
    run bs.length { crc := c, beats := bs } = .next t →
      t.beats = [] ∧ run bs.length { crc := c, beats := bs ++ bs' } = .next { crc := t.crc, beats := bs' } ∧
      run (bs.length + n) { crc := c, beats := bs ++ bs' } = run n { crc := t.crc, beats := bs' })

/-- R11, R79: over every step, `crc` changes only on a reset beat, an INIT beat or a UPD beat, and then to the preset or to
the update; no other value can be loaded. -/
def Obligations.OnlyResetInitAndUpdWriteCrc : Prop :=
  ∀ s t : State, step s = .next t → t.crc ≠ s.crc →
    ∃ b bs, s.beats = b :: bs ∧
      (((b.rst = true ∨ decode b.word = .init) ∧ t.crc = 0x6363#16) ∨
        (b.rst = false ∧ ∃ d, decode b.word = .upd d ∧ b.din = d ∧ t.crc = crcAStep s.crc d))

/-! ## The commands -/

/-- R40: NOP completes in every state, writes nothing at all and is idempotent; any number of NOP beats with any `din` leave
the register and the outputs as they are. -/
def Obligations.NopHoldsTheRegister : Prop :=
  (∀ s : State, exec .nop s = .next s) ∧
  (∀ w : CmdWord, decode w = .nop ↔ w.toNat ≤ 0x0FF) ∧ encode .nop = some 0x000#10 ∧
  (∀ (s : State) (dins : List Byte) (rest : List Beat),
    s.beats = dins.map (fun d => ⟨false, 0b00#2, d⟩) ++ rest →
      run dins.length s = .next { s with beats := rest } ∧
      trace dins.length s = List.replicate (dins.length + 1) (outputs s)) ∧
  (∀ (bs : List Beat) (d : Byte) (bs' : List Beat),
    activeEvents (bs ++ ⟨false, 0b00#2, d⟩ :: bs') = activeEvents (bs ++ bs')) ∧
  exec .nop { crc := 0x626D#16, beats := [] } = .next { crc := 0x626D#16, beats := [] } ∧
  outputs { crc := 0x626D#16, beats := [] } = (0x6D#8, 0x62#8)

/-- R41: INIT completes in every state, writes 0x6363 to the register and nothing else, whatever the register held; two in a
row equal one; straight after reset it changes nothing; it shows 0x63, 0x63. -/
def Obligations.InitLoadsThePreset : Prop :=
  (∀ s : State, exec .init s = .next { s with crc := 0x6363#16 }) ∧
  (∀ w : CmdWord, decode w = .init ↔ 0x100 ≤ w.toNat ∧ w.toNat ≤ 0x1FF) ∧ encode .init = some 0x100#10 ∧
  (∀ s t : State, exec .init s = .next t → exec .init t = .next t ∧ outputs t = (0x63#8, 0x63#8)) ∧
  (∀ s s' : State, s.beats = s'.beats → exec .init s = exec .init s') ∧
  exec .init State.reset = .next State.reset ∧
  exec .init { crc := 0xCF26#16, beats := [] } = .next { crc := 0x6363#16, beats := [] }

/-- R42: UPD completes in every state with every byte, writes `CrcAStep(crc, din)` by the rule's formula and nothing else;
the rule's corner cases. (The formula is the spec's decision D8.) -/
def Obligations.UpdAbsorbsOneByte : Prop :=
  (∀ (s : State) (b : Byte),
    let e : Byte := b ^^^ s.crc.extractLsb' 0 8
    let f : Byte := e ^^^ (e <<< 4)
    let t0 : Crc := (s.crc.extractLsb' 8 8).setWidth 16
    let t1 : Crc := f.setWidth 16 <<< 8
    let t2 : Crc := f.setWidth 16 <<< 3
    let t3 : Crc := (f.extractLsb' 4 4).setWidth 16
    exec (.upd b) s = .next { s with crc := t0 ^^^ t1 ^^^ t2 ^^^ t3 }) ∧
  (∀ (s : State) (b : Byte), exec (.upd b) s = .next { s with crc := crcAStep s.crc b }) ∧
  (∀ (w : CmdWord) (b : Byte), decode w = .upd b ↔ w = 0x200#10 ||| b.setWidth 10) ∧
  (∀ (c : Crc) (b : Byte),
    crcAStep c b = crcAStep (c.extractLsb' 8 8 ++ (b ^^^ c.extractLsb' 0 8) : BitVec 16) 0x00#8) ∧
  (∀ c : Crc, crcAStep c (c.extractLsb' 0 8) = c >>> 8) ∧
  (∃ (c : Crc) (b : Byte), crcAStep (crcAStep c b) b ≠ crcAStep c b) ∧
  crcAStep 0x6363#16 0x63#8 = 0x0063#16 ∧ crcAStep 0x0063#16 0x63#8 = 0x0000#16 ∧
  crcAStep 0x0000#16 0x00#8 = 0x0000#16 ∧ crcAStep 0xFFFF#16 0xFF#8 = 0x00FF#16 ∧
  crcAStep 0xFFFF#16 0x00#8 = 0x0F87#16 ∧ crcAStep 0x0000#16 0xFF#8 = 0x0F78#16 ∧
  crcAStep 0x6363#16 0x12#8 = 0x626D#16

/-- R33: the reserved command is refused in every state, its words are 0x300 to 0x3FF; a step is refused exactly on a beat
that presents one with `rst` = 0, and for no other reason; from every register value, whatever hardware left there, INIT and
reset bring 0x6363. -/
def Obligations.OnlyTheReservedCommandIsRefused : Prop :=
  (∀ s : State, exec .reserved s = .refused .reservedCommand) ∧
  (∀ w : CmdWord, decode w = .reserved ↔ 0x300 ≤ w.toNat) ∧
  (∀ (s : State) (r : Refusal), step s = .refused r ↔
    r = .reservedCommand ∧ ∃ b bs, s.beats = b :: bs ∧ b.rst = false ∧ b.cmd = 0b11#2) ∧
  (∀ (v : Crc) (d : Byte) (bs : List Beat),
    step { crc := v, beats := ⟨true, 0b11#2, d⟩ :: bs } = .next { crc := 0x6363#16, beats := bs } ∧
    step { crc := v, beats := ⟨false, 0b01#2, d⟩ :: bs } = .next { crc := 0x6363#16, beats := bs })

/-- R60, R67: nothing faults: every step answers a next state or the refusal of R33, and every command but the reserved one
answers a next state whose beats are untouched. -/
def Obligations.NoCommandFaults : Prop :=
  (∀ s : State, (∃ t, step s = .next t) ∨ step s = .refused .reservedCommand) ∧
  (∀ (i : Instr) (s : State), i ≠ .reserved → ∃ t, exec i s = .next t ∧ t.beats = s.beats)

/-! ## The outputs -/

/-- R15: `crc_b0 = crc[7:0]`, `crc_b1 = crc[15:8]`, functions of `crc` alone that together show all of it; during a beat they
show the register as it stands at the beat's start, from the next beat on what the beat wrote. -/
def Obligations.OutputsSplitTheRegister : Prop :=
  (∀ s : State, outputs s = (crcB0 s, crcB1 s) ∧ (crcB1 s ++ crcB0 s : BitVec 16) = s.crc) ∧
  (∀ (s : State) (i : Nat), i < 8 →
    (crcB0 s).getLsbD i = s.crc.getLsbD i ∧ (crcB1 s).getLsbD i = s.crc.getLsbD (i + 8)) ∧
  (∀ s t : State, outputs s = outputs t ↔ s.crc = t.crc) ∧
  (∀ (s t : State) (n : Nat), step s = .next t → trace (n + 1) s = outputs s :: trace n t) ∧
  outputs State.reset = (0x63#8, 0x63#8)

/-! ## The update -/

/-- R5: the reflected constant is the polynomial x^16 + x^12 + x^5 + 1 seen from the other end, its top term left out. -/
def Obligations.ReflectedConstantIsTheReversedPolynomial : Prop :=
  (∀ i : Nat, Config.generatorPoly.getLsbD i = true ↔ i = 16 ∨ i = 12 ∨ i = 5 ∨ i = 0) ∧
  (∀ i : Nat, i < 16 → Config.polyReflected.getLsbD i = Config.generatorPoly.getLsbD (15 - i)) ∧
  Config.polyReflected = 0x8408#16

/-- R43: the bit-serial form, its one step and its eight; the constant's bits; the worked steps. (The coefficients and the
bit order are the spec's decision D6.) -/
def Obligations.BitSerialFormShiftsLeastSignificantBitFirst : Prop :=
  (∀ (r : Crc) (bit : Bool), crcAShift r bit =
    if (r.getLsbD 0 ^^ bit) = true then (r >>> 1) ^^^ 0x8408#16 else r >>> 1) ∧
  (∀ (c : Crc) (b : Byte), crcAStepBits c b =
    crcAShift (crcAShift (crcAShift (crcAShift (crcAShift (crcAShift (crcAShift (crcAShift c
      (b.getLsbD 0)) (b.getLsbD 1)) (b.getLsbD 2)) (b.getLsbD 3)) (b.getLsbD 4)) (b.getLsbD 5)) (b.getLsbD 6))
      (b.getLsbD 7)) ∧
  (∀ i : Nat, (0x8408#16).getLsbD i = true ↔ i = 15 ∨ i = 10 ∨ i = 3) ∧
  crcAShift 0x6363#16 false = 0xB5B9#16 ∧ crcAShift 0xB5B9#16 true = 0x5ADC#16 ∧
  crcAShift 0x5ADC#16 false = 0x2D6E#16 ∧ crcAShift 0x2D6E#16 false = 0x16B7#16 ∧
  crcAShift 0x16B7#16 true = 0x0B5B#16 ∧ crcAShift 0x0B5B#16 false = 0x81A5#16 ∧
  crcAShift 0x81A5#16 false = 0xC4DA#16 ∧ crcAShift 0xC4DA#16 false = 0x626D#16 ∧
  crcAStepBits 0x6363#16 0x12#8 = 0x626D#16

/-- R44: the byte form and the bit-serial form are one function. -/
def Obligations.ByteFormEqualsBitSerialForm : Prop :=
  ∀ (c : Crc) (b : Byte), crcAStep c b = crcAStepBits c b

/-- R44's table: every bit of the next register. -/
def Obligations.NextRegisterBitByBit : Prop :=
  ∀ (c : Crc) (b : Byte),
    let e : Nat → Bool := fun i => b.getLsbD i ^^ c.getLsbD i
    let f : Nat → Bool := fun i => if i < 4 then e i else e i ^^ e (i - 4)
    let n : Nat → Bool := fun i => (crcAStep c b).getLsbD i
    n 15 = f 7 ∧ n 14 = f 6 ∧ n 13 = f 5 ∧ n 12 = f 4 ∧ n 11 = f 3 ∧ n 10 = (f 2 ^^ f 7) ∧ n 9 = (f 1 ^^ f 6) ∧
    n 8 = (f 0 ^^ f 5) ∧ n 7 = (c.getLsbD 15 ^^ f 4) ∧ n 6 = (c.getLsbD 14 ^^ f 3) ∧ n 5 = (c.getLsbD 13 ^^ f 2) ∧
    n 4 = (c.getLsbD 12 ^^ f 1) ∧ n 3 = (c.getLsbD 11 ^^ f 0 ^^ f 7) ∧ n 2 = (c.getLsbD 10 ^^ f 6) ∧
    n 1 = (c.getLsbD 9 ^^ f 5) ∧ n 0 = (c.getLsbD 8 ^^ f 4)

/-- spec/95_test_vectors.md 4.4: the table-driven form, with the 256 values transcribed from the spec. -/
def Obligations.TableDrivenFormEqualsByteForm : Prop :=
  crcATable.length = 256 ∧ ∀ (c : Crc) (b : Byte), crcAStepTable c b = crcAStep c b

/-- R46, property 2: linear over XOR, for one byte and for two messages of equal length. -/
def Obligations.UpdateIsLinearOverXor : Prop :=
  (∀ (c c' : Crc) (b b' : Byte), crcAStep (c ^^^ c') (b ^^^ b') = crcAStep c b ^^^ crcAStep c' b') ∧
  crcAStep 0x0000#16 0x00#8 = 0x0000#16 ∧
  (∀ m m' : List Byte, m.length = m'.length →
    crcA m ^^^ crcA m' = absorbAll 0x0000#16 (List.zipWith (· ^^^ ·) m m'))

/-- R46, property 3: for a fixed byte the update is a bijection on the register values; and so is any sequence of bytes. -/
def Obligations.UpdateIsBijectiveOnTheRegister : Prop :=
  (∀ b : Byte, Function.Bijective (fun c : Crc => crcAStep c b)) ∧
  (∀ m : List Byte, Function.Bijective (fun c : Crc => absorbAll c m))

/-- R46, property 4, and R11: the two-byte messages reach every register value, each exactly one; so every value is reached
from reset by a run. -/
def Obligations.EveryRegisterValueIsReached : Prop :=
  Function.Bijective (fun p : Byte × Byte => crcA [p.1, p.2]) ∧
  crcA [0x63#8, 0x63#8] = 0x0000#16 ∧ crcA [0x42#8, 0x90#8] = 0xFFFF#16 ∧ crcA [0x65#8, 0x35#8] = 0x6363#16 ∧
  (∀ v : Crc, ∃ bs : List Beat,
    run bs.length { State.reset with beats := bs } = .next { crc := v, beats := [] })

/-- R46, property 5: the basis values, and that with linearity they define the whole function. -/
def Obligations.BasisValuesDefineTheUpdate : Prop :=
  (List.range 8).map (fun i => crcAStep 0x0000#16 (0x01#8 <<< i)) =
    [0x1189#16, 0x2312#16, 0x4624#16, 0x8C48#16, 0x1081#16, 0x2102#16, 0x4204#16, 0x8408#16] ∧
  (List.range 8).map (fun i => crcAStep (0x0001#16 <<< i) 0x00#8) =
    [0x1189#16, 0x2312#16, 0x4624#16, 0x8C48#16, 0x1081#16, 0x2102#16, 0x4204#16, 0x8408#16] ∧
  (∀ i : Nat, 8 ≤ i → i < 16 → crcAStep (0x0001#16 <<< i) 0x00#8 = 0x0001#16 <<< (i - 8)) ∧
  (∀ g : Crc → Byte → Crc,
    (∀ c c' b b', g (c ^^^ c') (b ^^^ b') = g c b ^^^ g c' b') →
    (∀ i, i < 8 → g 0x0000#16 (0x01#8 <<< i) = crcAStep 0x0000#16 (0x01#8 <<< i)) →
    (∀ i, i < 16 → g (0x0001#16 <<< i) 0x00#8 = crcAStep (0x0001#16 <<< i) 0x00#8) →
    ∀ c b, g c b = crcAStep c b)

/-! ## Messages -/

/-- R50: `CrcA` is the left fold of the update from 0x6363, with nothing done after the last byte; `CrcABytes` is its split,
low byte first. -/
def Obligations.MessageCrcIsALeftFold : Prop :=
  crcA [] = 0x6363#16 ∧
  (∀ (buf : List Byte) (b : Byte), crcA (buf ++ [b]) = crcAStep (crcA buf) b) ∧
  (∀ buf : List Byte, crcA buf = buf.foldl crcAStep 0x6363#16) ∧
  (∀ buf : List Byte, crcABytes buf = ((crcA buf).extractLsb' 0 8, (crcA buf).extractLsb' 8 8))

/-- R51, R71: from any state, INIT or a reset beat and then one UPD per byte in index order, with NOPs anywhere, leaves
`CrcA(buf)` in the register and `CrcABytes(buf)` on the outputs, in as many steps as there are beats; right after a preset
the leading INIT may be left out; without NOPs that is `n + 1` beats. -/
def Obligations.BeatsOfAMessageComputeItsCrc : Prop :=
  (∀ (s : State) (buf : List Byte) (bs rest : List Beat), s.beats = bs ++ rest →
    (presentsMessage buf bs = true ∨ (s.crc = 0x6363#16 ∧ presentsBytes buf bs = true)) →
      run bs.length s = .next { crc := crcA buf, beats := rest } ∧
      outputs { crc := crcA buf, beats := rest } = crcABytes buf) ∧
  (∀ buf : List Byte, presentsMessage buf (messageBeats buf) = true ∧
    (messageBeats buf).length = buf.length + 1) ∧
  (∀ (buf : List Byte) (c : CmdCode) (d : Byte),
    presentsMessage buf (⟨true, c, d⟩ :: (messageBeats buf).tail) = true)

/-- R56, R74: while INIT and the UPDs of a message are presented, the outputs show `CrcABytes` of each prefix in turn, each
from the beat after its last byte on. -/
def Obligations.OutputsShowTheCrcOfEveryInitialSegment : Prop :=
  ∀ (s : State) (buf : List Byte) (rest : List Beat), s.beats = messageBeats buf ++ rest →
    trace (buf.length + 1) s =
      outputs s :: (List.range (buf.length + 1)).map (fun k => crcABytes (buf.take k))

/-- R17, R57: what the block did before INIT or reset is forgotten: two runs with the same beats, the first of them INIT or
reset, agree from the next beat on, in their states, their refusals and all they show. -/
def Obligations.ResultDoesNotDependOnHistory : Prop :=
  ∀ (s t : State) (b : Beat) (bs : List Beat) (n : Nat), s.beats = b :: bs → t.beats = b :: bs → b.event = .preset →
    run (n + 1) s = run (n + 1) t ∧ (trace (n + 1) s).tail = (trace (n + 1) t).tail

/-- R72, R56: without an INIT the register goes on from the first message's result and holds the CRC of the two messages
joined; the rule's example. -/
def Obligations.MissingInitJoinsTheMessages : Prop :=
  (∀ (s : State) (m m' : List Byte) (bs rest : List Beat), s.crc = crcA m → s.beats = bs ++ rest →
    presentsBytes m' bs = true → run bs.length s = .next { crc := crcA (m ++ m'), beats := rest }) ∧
  crcA [0x12#8, 0x34#8] = 0xCF26#16 ∧ crcA [0x12#8, 0x34#8, 0x00#8, 0x00#8] = 0x4918#16 ∧
  crcA [0x00#8, 0x00#8] = 0x1EA0#16

/-- R75: a byte held on `din` is absorbed once for every beat on which `cmd` selects UPD, and not at all on NOP beats. -/
def Obligations.HeldByteIsAbsorbedOncePerUpdBeat : Prop :=
  ∀ (s : State) (d : Byte) (cmds : List CmdCode) (rest : List Beat), (∀ c ∈ cmds, c = 0b00#2 ∨ c = 0b10#2) →
    s.beats = cmds.map (fun c => ⟨false, c, d⟩) ++ rest →
      run cmds.length s =
        .next { crc := absorbAll s.crc (List.replicate (cmds.count 0b10#2) d), beats := rest }

/-- R53: the frame is the buffer, then the low byte, then the high byte; the rule's example. -/
def Obligations.FrameAppendsTheLowByteFirst : Prop :=
  (∀ buf : List Byte, frame buf = buf ++ [(crcA buf).extractLsb' 0 8, (crcA buf).extractLsb' 8 8]) ∧
  (∀ buf : List Byte, (frame buf).length = buf.length + 2) ∧
  frame [0x12#8, 0x34#8] = [0x12#8, 0x34#8, 0x26#8, 0xCF#8]

/-- R54: absorbing a whole frame leaves 0x0000; from any register value exactly one pair of bytes, the register's own two,
leads to 0x0000, so for a given buffer only the pair of `CrcABytes` does. -/
def Obligations.ResidueIsZeroForTheRightPairOnly : Prop :=
  (∀ buf : List Byte, crcA (frame buf) = 0x0000#16) ∧
  (∀ (c : Crc) (x y : Byte), absorbAll c [x, y] = 0x0000#16 ↔ x = c.extractLsb' 0 8 ∧ y = c.extractLsb' 8 8) ∧
  (∀ (buf : List Byte) (x y : Byte), crcA (buf ++ [x, y]) = 0x0000#16 ↔ (x, y) = crcABytes buf)

/-! ## Assembler lines -/

/-- R36, R37 (the blanks of a line are log entry 7): the text of every line reads back as that line, with a comment after it
or without. -/
def Obligations.AssemblerTextReadsBack : Prop :=
  ∀ (l : AsmLine) (comment : List Char), l.wellFormed = true →
    readLine l.text = some l ∧ readLine (l.text ++ ' ' :: ';' :: comment) = some l

/-- R36, R37: the command words of the lines, RST with the word 0 and with a word listed beside it (that such a word stands
outside the line is log entry 7), the expansions of CRCA, FRAME and CHECK, and what each leaves behind: the CRC
on the outputs, and for CHECK a zero register exactly when the two received bytes are the right ones. -/
def Obligations.PseudoInstructionsExpandAndCompute : Prop :=
  AsmLine.beats .nop = [⟨false, 0b00#2, 0x00#8⟩] ∧ AsmLine.beats .init = [⟨false, 0b01#2, 0x00#8⟩] ∧
  (∀ b : Byte, AsmLine.beats (.upd b) = [⟨false, 0b10#2, b⟩]) ∧
  AsmLine.beats .rst = [⟨true, 0b00#2, 0x00#8⟩] ∧ (∀ l : AsmLine, l.beatsBeside none = l.beats) ∧
  (∀ w : CmdWord, AsmLine.beatsBeside .rst (some w) = [⟨true, cmdField w, dinField w⟩]) ∧
  (∀ buf : List Byte, AsmLine.beats (.crca buf) = listingBeats (.init :: buf.map .upd) ∧
    AsmLine.beats (.frame buf) = AsmLine.beats (.crca buf)) ∧
  (∀ (buf : List Byte) (c0 c1 : Byte),
    AsmLine.beats (.check buf c0 c1) = listingBeats (.init :: (buf ++ [c0, c1]).map .upd)) ∧
  (∀ (s : State) (buf : List Byte), s.beats = AsmLine.beats (.crca buf) →
    run s.beats.length s = .next { crc := crcA buf, beats := [] } ∧
    outputs { crc := crcA buf, beats := [] } = crcABytes buf) ∧
  crcA [] = 0x6363#16 ∧
  (∀ (s : State) (buf : List Byte) (c0 c1 : Byte), s.beats = AsmLine.beats (.check buf c0 c1) →
    ∃ t, run s.beats.length s = .next t ∧ (t.crc = 0x0000#16 ↔ (c0, c1) = crcABytes buf))

/-! ## Safe runs and the invariant -/

/-- R78: a run applies `Step` of R70 to each beat in order, is refused from the first reserved word with `rst` = 0 on, and
takes no notice of the beats after its last one; what is observed is the pair of outputs at every beat and at the end. -/
def Obligations.RunAppliesTheStepRuleToEachBeat : Prop :=
  (∀ (c : Crc) (bs rest : List Beat),
    run bs.length { crc := c, beats := bs ++ rest } =
      match bs.foldlM (fun (v : Crc) (b : Beat) => blockStep v b.rst b.cmd b.din) c with
      | some v => .next { crc := v, beats := rest }
      | none => .refused .reservedCommand) ∧
  (∀ (s t : State) (n : Nat), run n s = .next t →
    (trace n s).length = n + 1 ∧ (trace n s).head? = some (outputs s) ∧ (trace n s).getLast? = some (outputs t))

/-- R78, R79: while the host presents no reserved word with `rst` = 0 every run completes, and the assumption is kept by
every step; a run that contains such a beat is refused from that beat on. -/
def Obligations.AcceptedRunsCompleteAndOthersAreRefused : Prop :=
  (∀ s : State, s.safe = true → ∃ c, run s.beats.length s = .next { crc := c, beats := [] }) ∧
  (∀ s t : State, s.safe = true → step s = .next t → t.safe = true) ∧
  (∀ (s : State) (bs rest : List Beat) (b : Beat) (n : Nat), s.beats = bs ++ b :: rest →
    bs.all Beat.accepted = true → b.rst = false → b.cmd = 0b11#2 →
      run (bs.length + 1 + n) s = .refused .reservedCommand)

/-- R17, R56, R72, R76: the invariant. From every state in which the register holds the CRC of the message in progress, every
step leads to such a state. -/
def Obligations.CrcTracksTheMessageInProgress : Prop :=
  (∀ (m0 : List Byte) (bs0 : List Beat) (s t : State),
    TracksMessage m0 bs0 s → step s = .next t → TracksMessage m0 bs0 t) ∧
  (∀ (m0 : List Byte) (bs0 : List Beat) (s t : State) (n : Nat),
    TracksMessage m0 bs0 s → run n s = .next t → TracksMessage m0 bs0 t)

/-- The invariant holds at reset (no beat to come, log entry 3), and in every state whose register is some message's CRC. -/
def Obligations.TracksMessageAtReset : Prop :=
  TracksMessage [] [] State.reset ∧
  ∀ (m : List Byte) (bs : List Beat), TracksMessage m bs { crc := crcA m, beats := bs }
end

