-- ==== Sys2Proof/Laws/Decode.lean ====
section
/-! SUPPORT. The fields of a command word, and what each command code decodes to. -/

namespace Sys2Proof

@[simp] theorem cmdField_commandWord (c : CmdCode) (d : Byte) : cmdField (commandWord c d) = c := by
  unfold cmdField commandWord
  ext i hi
  have h := BitVec.getLsbD_append (x := c) (y := d) (i := 8 + i)
  simpa [hi, BitVec.getLsbD_eq_getElem hi] using h

@[simp] theorem dinField_commandWord (c : CmdCode) (d : Byte) : dinField (commandWord c d) = d := by
  unfold dinField commandWord
  ext i hi
  have h := BitVec.getLsbD_append (x := c) (y := d) (i := i)
  simpa [hi, BitVec.getLsbD_eq_getElem hi] using h

/-- A command word is its two fields. -/
theorem commandWord_fields (w : CmdWord) : commandWord (cmdField w) (dinField w) = w := by
  unfold cmdField dinField commandWord
  ext i hi
  rw [← BitVec.getLsbD_eq_getElem, ← BitVec.getLsbD_eq_getElem, BitVec.getLsbD_append]
  by_cases h : i < 8
  · simp [h]
  · have : 8 + (i - 8) = i := by omega
    simp [h, this]
    omega

theorem decode_nop (d : Byte) : decode (commandWord 0b00#2 d) = .nop := by simp [decode]
theorem decode_init (d : Byte) : decode (commandWord 0b01#2 d) = .init := by simp [decode]
theorem decode_upd (d : Byte) : decode (commandWord 0b10#2 d) = .upd d := by simp [decode]
theorem decode_reserved (d : Byte) : decode (commandWord 0b11#2 d) = .reserved := by simp [decode]

/-- The command code takes one of four values. -/
theorem cmdCode_cases (c : CmdCode) : c = 0b00#2 ∨ c = 0b01#2 ∨ c = 0b10#2 ∨ c = 0b11#2 := by
  revert c; decide

/-- The canonical UPD word is the word with code `0b10` and the byte. -/
theorem updWord_eq (d : Byte) : 0x200#10 ||| d.setWidth 10 = commandWord 0b10#2 d := by
  revert d; decide

end Sys2Proof
end

