-- ==== Sys2Proof/Laws/State.lean ====
section
/-! SUPPORT. One lemma per field per update of State, and what the outputs show after each. -/

namespace Sys2Proof.Machine

@[simp] theorem State.setCrc_crc (s : State) (v : Crc) : (s.setCrc v).crc = v := rfl
@[simp] theorem State.setCrc_beats (s : State) (v : Crc) : (s.setCrc v).beats = s.beats := rfl
@[simp] theorem State.presetCrc_crc (s : State) : s.presetCrc.crc = Config.crcAPreset := rfl
@[simp] theorem State.presetCrc_beats (s : State) : s.presetCrc.beats = s.beats := rfl
@[simp] theorem State.absorb_crc (s : State) (d : Byte) : (s.absorb d).crc = crcAStep s.crc d := rfl
@[simp] theorem State.absorb_beats (s : State) (d : Byte) : (s.absorb d).beats = s.beats := rfl
@[simp] theorem State.dropBeat_crc (s : State) : s.dropBeat.crc = s.crc := rfl
@[simp] theorem State.dropBeat_beats (s : State) : s.dropBeat.beats = s.beats.tail := rfl
@[simp] theorem State.present_crc (s : State) (b : Beat) : (s.present b).crc = s.crc := rfl
@[simp] theorem State.present_beats (s : State) (b : Beat) : (s.present b).beats = b :: s.beats := rfl

/-- Writing back what the register holds changes nothing. -/
@[simp] theorem State.setCrc_self (s : State) : s.setCrc s.crc = s := rfl

/-- A beat presented and taken leaves the state as it was. -/
@[simp] theorem State.dropBeat_present (s : State) (b : Beat) : (s.present b).dropBeat = s := rfl

@[simp] theorem crcB0_mk (c : Crc) (bs : List Beat) : crcB0 { crc := c, beats := bs } = lowByte c := rfl
@[simp] theorem crcB1_mk (c : Crc) (bs : List Beat) : crcB1 { crc := c, beats := bs } = highByte c := rfl

/-- Two states with the same register and the same beats to come are the same state (R16). -/
theorem State.eq_of_fields {s t : State} (hc : s.crc = t.crc) (hb : s.beats = t.beats) : s = t := by
  cases s; cases t; simp_all

end Sys2Proof.Machine
end

