-- ==== Sys2Proof/Laws/Ops.lean ====
section
/-! SUPPORT. The update: each of its parts is XOR-linear, and it is the register's upper byte XOR what the working byte feeds
back (spec/40_commands.md R42). -/

namespace Sys2Proof.Machine

theorem lowByte_xor (c c' : Crc) : lowByte (c ^^^ c') = lowByte c ^^^ lowByte c' := by
  ext i hi; simp [lowByte]

theorem highByte_xor (c c' : Crc) : highByte (c ^^^ c') = highByte c ^^^ highByte c' := by
  ext i hi; simp [highByte]

theorem foldNibble_xor (e e' : Byte) : foldNibble (e ^^^ e') = foldNibble e ^^^ foldNibble e' := by
  unfold foldNibble
  rw [BitVec.shiftLeft_xor_distrib]
  ac_rfl

theorem feedback_xor (f f' : Byte) : feedback (f ^^^ f') = feedback f ^^^ feedback f' := by
  unfold feedback
  rw [BitVec.setWidth_xor, BitVec.shiftLeft_xor_distrib, BitVec.shiftLeft_xor_distrib, BitVec.ushiftRight_xor_distrib]
  ac_rfl

@[simp] theorem lowByte_zero : lowByte 0#16 = 0#8 := by decide
@[simp] theorem highByte_zero : highByte 0#16 = 0#8 := by decide
@[simp] theorem foldNibble_zero : foldNibble 0#8 = 0#8 := by decide
@[simp] theorem feedback_zero : feedback 0#8 = 0#16 := by decide

/-- `t0` of R42 in its two spellings: `zext_16(c[15:8])` and `c >> 8`. -/
theorem highByte_setWidth (c : Crc) : (highByte c).setWidth 16 = c >>> 8 := by
  ext i hi
  by_cases h : i < 8
  · simp [highByte, h]
  · simp [highByte, h]
    exact (BitVec.getLsbD_of_ge _ _ (by omega))

@[simp] theorem lowByte_append (h l : Byte) : lowByte (h ++ l) = l := by
  ext i hi
  have := BitVec.getLsbD_append (x := h) (y := l) (i := i)
  simpa [lowByte, hi, BitVec.getLsbD_eq_getElem hi] using this

@[simp] theorem highByte_append (h l : Byte) : highByte (h ++ l) = h := by
  ext i hi
  have := BitVec.getLsbD_append (x := h) (y := l) (i := 8 + i)
  simpa [highByte, hi, BitVec.getLsbD_eq_getElem hi] using this

/-- A working byte that feeds nothing back into the register's upper half is zero. -/
theorem feedback_upper_zero : ∀ e : Byte, feedback (foldNibble e) >>> 8 = 0#16 → e = 0#8 := by decide

/-- The update as one shift and one feedback term. -/
theorem crcAStep_eq_shift (c : Crc) (b : Byte) :
    crcAStep c b = (c >>> 8) ^^^ feedback (foldNibble (b ^^^ lowByte c)) := by
  rw [crcAStep, highByte_setWidth]

end Sys2Proof.Machine
end

