-- ==== Sys2Proof/Laws/PerInstr.lean ====
section
/-! SUPPORT. Laws stated per command. -/

namespace Sys2Proof.Laws.MnemonicRow

/-- The opcode table has exactly one row under the command's name, and that row selects every word that decodes to the
command (spec/30_encoding.md R31). -/
def Statement (i : Instr) : Prop :=
  ∃ r, opcodeTable.filter (fun r => r.mnemonic == i.mnemonic) = [r] ∧
    ∀ c d, decode (commandWord c d) = i → r.selects (commandWord c d) = true

/-- Every command word that decodes to a command has the command's code in its upper field. -/
theorem code_of_decode (c : CmdCode) (d : Byte) (i : Instr) (h : decode (commandWord c d) = i) :
    (i = .nop → c = 0b00#2) ∧ (i = .init → c = 0b01#2) ∧ (∀ b, i = .upd b → c = 0b10#2) ∧
      (i = .reserved → c = 0b11#2) := by
  obtain rfl | rfl | rfl | rfl := cmdCode_cases c
  · rw [decode_nop] at h; subst h; simp
  · rw [decode_init] at h; subst h; simp
  · rw [decode_upd] at h; subst h; simp
  · rw [decode_reserved] at h; subst h; simp

theorem nop : Statement .nop :=
  ⟨_, rfl, fun c d h => by rw [(code_of_decode c d _ h).1 rfl]; clear h; revert d; decide⟩

theorem init : Statement .init :=
  ⟨_, rfl, fun c d h => by rw [(code_of_decode c d _ h).2.1 rfl]; clear h; revert d; decide⟩

theorem upd (din : Byte) : Statement (.upd din) :=
  ⟨_, rfl, fun c d h => by rw [(code_of_decode c d _ h).2.2.1 _ rfl]; clear h; revert d; decide⟩

theorem reserved : Statement .reserved :=
  ⟨_, rfl, fun c d h => by rw [(code_of_decode c d _ h).2.2.2 rfl]; clear h; revert d; decide⟩

end Sys2Proof.Laws.MnemonicRow
end

