-- ==== Sys2Proof/Laws/Step.lean ====
section
/-! SUPPORT. What one step can do: one lemma per kind of beat, and the inversion lemma that later proofs cite instead of
unfolding the step. -/

namespace Sys2Proof.Machine

theorem step_of_no_beat {s : State} (h : s.beats = []) : step s = .next s := by
  simp [step, runNextBeat, h, idle]

theorem step_of_beat {s : State} {b : Beat} {bs : List Beat} (h : s.beats = b :: bs) :
    step s = execBeat b s.dropBeat := by
  simp [step, runNextBeat, h]

@[simp] theorem Beat.event_reset (c : CmdCode) (d : Byte) : Beat.event ⟨true, c, d⟩ = .preset := by simp [Beat.event]
@[simp] theorem Beat.event_resetWith (w : CmdWord) : (Beat.resetWith w).event = .preset := by
  simp [Beat.event, Beat.resetWith]
@[simp] theorem Beat.event_nop (d : Byte) : Beat.event ⟨false, 0b00#2, d⟩ = .hold := by
  simp [Beat.event, Beat.word, decode_nop]
@[simp] theorem Beat.event_init (d : Byte) : Beat.event ⟨false, 0b01#2, d⟩ = .preset := by
  simp [Beat.event, Beat.word, decode_init]
@[simp] theorem Beat.event_upd (d : Byte) : Beat.event ⟨false, 0b10#2, d⟩ = .absorb d := by
  simp [Beat.event, Beat.word, decode_upd]
@[simp] theorem Beat.event_reserved (d : Byte) : Beat.event ⟨false, 0b11#2, d⟩ = .refuse := by
  simp [Beat.event, Beat.word, decode_reserved]

/-- A beat is one of five kinds. -/
theorem Beat.kinds (b : Beat) :
    (∃ c d, b = ⟨true, c, d⟩) ∨ (∃ d, b = ⟨false, 0b00#2, d⟩) ∨ (∃ d, b = ⟨false, 0b01#2, d⟩) ∨
      (∃ d, b = ⟨false, 0b10#2, d⟩) ∨ (∃ d, b = ⟨false, 0b11#2, d⟩) := by
  obtain ⟨r, c, d⟩ := b
  cases r with
  | true => exact .inl ⟨c, d, rfl⟩
  | false => obtain rfl | rfl | rfl | rfl := cmdCode_cases c <;> simp

/-- The beat's meaning in terms of its event: what is written is decided by the event alone. -/
theorem execBeat_eq (b : Beat) (s : State) :
    execBeat b s = match b.event with
      | .hold => .next s
      | .preset => .next s.presetCrc
      | .absorb d => .next (s.absorb d)
      | .refuse => .refused .reservedCommand := by
  obtain ⟨c, d, rfl⟩ | ⟨d, rfl⟩ | ⟨d, rfl⟩ | ⟨d, rfl⟩ | ⟨d, rfl⟩ := b.kinds
  · simp [execBeat, execReset]
  · simp [execBeat, Beat.word, decode_nop, exec, execNop]
  · simp [execBeat, Beat.word, decode_init, exec, execInit]
  · simp [execBeat, Beat.word, decode_upd, exec, execUpd]
  · simp [execBeat, Beat.word, decode_reserved, exec, execReserved]

/-- A beat is refused exactly when the host breaks R79's assumption. -/
theorem Beat.accepted_iff (b : Beat) : b.accepted = true ↔ b.event ≠ .refuse := by
  obtain ⟨c, d, rfl⟩ | ⟨d, rfl⟩ | ⟨d, rfl⟩ | ⟨d, rfl⟩ | ⟨d, rfl⟩ := b.kinds <;> simp [Beat.accepted]

/-- The inversion of `step`: if it answers a next state, no beat was there, or the beat's event says what was written. -/
theorem step_next_cases {s t : State} (h : step s = .next t) :
    (s.beats = [] ∧ t = s) ∨
    ∃ b bs, s.beats = b :: bs ∧
      ((b.event = .hold ∧ t = s.dropBeat) ∨ (b.event = .preset ∧ t = s.dropBeat.presetCrc) ∨
        ∃ d, b.event = .absorb d ∧ t = s.dropBeat.absorb d) := by
  cases hb : s.beats with
  | nil => rw [step_of_no_beat hb] at h; exact .inl ⟨rfl, by simpa using h.symm⟩
  | cons b bs =>
    rw [step_of_beat hb, execBeat_eq] at h
    refine .inr ⟨b, bs, rfl, ?_⟩
    cases he : b.event <;> simp_all

end Sys2Proof.Machine
end

