-- ==== Sys2Proof/Laws/Runs.lean ====
section
/-! SUPPORT. Runs: their unfolding, one step and then the rest, and how two runs join. -/

namespace Sys2Proof.Machine

@[simp] theorem run_zero (s : State) : run 0 s = .next s := rfl

theorem run_succ (n : Nat) (s : State) :
    run (n + 1) s = match step s with
      | .next t => run n t
      | .fault r => .fault r
      | .refused r => .refused r := by
  have h : run (n + 1) s = _ := Host.Core.run.eq_2 core s n
  have hstep : core.step s = step s := rfl
  rw [h]
  cases hs : step s <;> (rw [hs] at hstep; rw [hstep]; rfl)

theorem run_succ_of_next {s t : State} (n : Nat) (h : step s = .next t) : run (n + 1) s = run n t := by
  rw [run_succ, h]

theorem run_succ_of_refused {s : State} {r : Refusal} (n : Nat) (h : step s = .refused r) :
    run (n + 1) s = .refused r := by
  rw [run_succ, h]

/-- A run that ends in a state may be continued from it. -/
theorem run_add_of_next {m : Nat} {s t : State} (n : Nat) (h : run m s = .next t) : run (m + n) s = run n t := by
  induction m generalizing s with
  | zero => simp at h; subst h; simp
  | succ m ih =>
    rw [show m + 1 + n = (m + n) + 1 by omega]
    cases hs : step s with
    | next u =>
      rw [run_succ_of_next _ hs] at h
      rw [run_succ_of_next _ hs, ih h]
    | fault r => cases r
    | refused r => rw [run_succ_of_refused _ hs] at h; cases h

@[simp] theorem trace_zero (s : State) : trace 0 s = [outputs s] := rfl

theorem trace_succ_of_next {s t : State} (n : Nat) (h : step s = .next t) :
    trace (n + 1) s = outputs s :: trace n t := by simp [trace, h]

@[simp] theorem absorbAll_nil (c : Crc) : absorbAll c [] = c := rfl
@[simp] theorem absorbAll_cons (c : Crc) (b : Byte) (buf : List Byte) :
    absorbAll c (b :: buf) = absorbAll (crcAStep c b) buf := rfl
theorem absorbAll_append (c : Crc) (m m' : List Byte) : absorbAll c (m ++ m') = absorbAll (absorbAll c m) m' := by
  simp [absorbAll]

/-- What an event that is not refused does to the register. -/
def BeatEvent.write (c : Crc) : BeatEvent → Crc
  | .hold => c
  | .preset => Config.crcAPreset
  | .absorb d => crcAStep c d
  | .refuse => c

theorem step_of_event (c : Crc) (b : Beat) (bs : List Beat) (h : b.event ≠ .refuse) :
    step { crc := c, beats := b :: bs } = .next { crc := b.event.write c, beats := bs } := by
  rw [step_of_beat rfl, execBeat_eq]
  cases he : b.event <;> simp_all [BeatEvent.write] <;> rfl

/-- A list of beats none of which is refused runs to its end, each event writing in turn. -/
theorem run_of_events (c : Crc) (bs rest : List Beat) (h : ∀ b ∈ bs, b.event ≠ .refuse) :
    run bs.length { crc := c, beats := bs ++ rest } =
      .next { crc := (bs.map Beat.event).foldl BeatEvent.write c, beats := rest } := by
  induction bs generalizing c with
  | nil => simp
  | cons b bs ih =>
    rw [List.length_cons, List.cons_append, run_succ_of_next _ (step_of_event c b _ (h b (by simp))),
      ih _ (fun b hb => h b (by simp [hb]))]
    rfl

/-- Holding beats may be left out: they write nothing. -/
theorem foldl_write_active (c : Crc) (bs : List Beat) :
    (bs.map Beat.event).foldl BeatEvent.write c = (activeEvents bs).foldl BeatEvent.write c := by
  induction bs generalizing c with
  | nil => rfl
  | cons b bs ih =>
    simp only [activeEvents, List.map_cons, List.foldl_cons] at ih ⊢
    rw [ih]
    cases he : b.event <;> simp [BeatEvent.write]

/-- Absorbing events are the fold of the update. -/
theorem foldl_write_absorb (c : Crc) (buf : List Byte) :
    (buf.map BeatEvent.absorb).foldl BeatEvent.write c = absorbAll c buf := by
  induction buf generalizing c with
  | nil => rfl
  | cons b buf ih => simp [BeatEvent.write, ih]

end Sys2Proof.Machine
end

