-- ==== Sys2Proof/Tests/Slice0.lean ====
section
/-! SUPPORT. Tests. Every expected value is a vector of spec/95_test_vectors.md (named in the theorem's comment) or an
example of a rule; and for every statement with hypotheses a witness that meets them. -/

namespace Sys2Proof.Tests

open Sys2Proof Sys2Proof.Machine

/-- A state on which `rst` = 0 and the port carries the word `w`. -/
def withWord (c : Crc) (w : CmdWord) : State := { crc := c, beats := [Beat.ofWord w] }

/-- A state on which `rst` = 1 and the port carries the word `w`. -/
def withReset (c : Crc) (w : CmdWord) : State := { crc := c, beats := [{ Beat.ofWord w with rst := true }] }

/-- The register after an outcome; none where there is no next state. -/
def crcAfter : Host.Outcome State Fault Refusal → Option Crc
  | .next s => some s.crc
  | .fault _ => none
  | .refused _ => none

/-- Whether an outcome is the refusal of the reserved command. -/
def isReserved : Host.Outcome State Fault Refusal → Bool
  | .next _ => false
  | .fault _ => false
  | .refused r => r == .reservedCommand

/-! ## Well-formedness -/

theorem test_wellFormed_refuses_reserved : wellFormed .reserved = false := by decide
theorem test_wellFormed_accepts_upd : wellFormed (.upd 0xFF#8) = true := by decide

/-! ## Decoding (words from the table of R31 and 95 4.3, bit by bit) -/

theorem test_decode_nop : decode 0b0000000000#10 = .nop ∧ decode 0b0011111111#10 = .nop := by decide
theorem test_decode_init : decode 0b0100000000#10 = .init ∧ decode 0b0101100011#10 = .init := by decide
theorem test_decode_upd : decode 0b1000010010#10 = .upd 0x12#8 ∧ decode 0b1001100011#10 = .upd 0x63#8 := by decide
theorem test_decode_reserved : decode 0b1100000000#10 = .reserved ∧ decode 0b1111111111#10 = .reserved := by decide
theorem test_encode : encode (decode 0x0FF#10) = some 0x000#10 ∧ encode (decode 0x163#10) = some 0x100#10 ∧
    encode (decode 0x263#10) = some 0x263#10 ∧ encode (decode 0x3FF#10) = none := by decide
theorem test_decode_number : decodeTableWord 16 0x212 = some (.upd 0x12#8) ∧ decodeTableWord 16 0x400 = none := by decide

/-! ## Commands -/

/-- B1, B2 -/
theorem test_nop : crcAfter (step (withWord 0x626D#16 0x000#10)) = some 0x626D#16 ∧
    crcAfter (step (withWord 0x626D#16 0x0FF#10)) = some 0x626D#16 := by decide
/-- B3, B4, B6 -/
theorem test_init : crcAfter (step (withWord 0xCF26#16 0x100#10)) = some 0x6363#16 ∧
    crcAfter (step (withWord 0xCF26#16 0x1A5#10)) = some 0x6363#16 ∧
    crcAfter (step (withWord 0x0000#16 0x100#10)) = some 0x6363#16 := by decide
/-- S1, B12, S19, S20 -/
theorem test_upd : crcAfter (step (withWord 0x6363#16 0x212#10)) = some 0x626D#16 ∧
    crcAfter (step (withWord 0x626D#16 0x234#10)) = some 0xCF26#16 ∧
    crcAfter (step (withWord 0x1234#16 0x256#10)) = some 0x4006#16 ∧
    crcAfter (step (withWord 0xABCD#16 0x2EF#10)) = some 0x02BB#16 := by decide
/-- S4 (F9: an untruncated shift would give 7788), S16, S10, S14 -/
theorem test_upd_corners : crcAfter (step (withWord 0x0000#16 0x2FF#10)) = some 0x0F78#16 ∧
    crcAfter (step (withWord 0x0000#16 0x208#10)) = some 0x8C48#16 ∧
    crcAfter (step (withWord 0x8000#16 0x200#10)) = some 0x0080#16 ∧
    crcAfter (step (withWord 0x0000#16 0x280#10)) = some 0x8408#16 := by decide
/-- B10, B11 -/
theorem test_reserved : isReserved (step (withWord 0x626D#16 0x300#10)) = true ∧
    isReserved (step (withWord 0x626D#16 0x3FF#10)) = true := by decide
/-- B7, B8, B9 -/
theorem test_reset_beat : crcAfter (step (withReset 0xCF26#16 0x000#10)) = some 0x6363#16 ∧
    crcAfter (step (withReset 0x626D#16 0x234#10)) = some 0x6363#16 ∧
    crcAfter (step (withReset 0x626D#16 0x3FF#10)) = some 0x6363#16 := by decide
/-- The host's first word after reset runs. -/
theorem test_first_word_after_reset : crcAfter (step (State.reset.withFetchWord 16 0x212)) = some 0x626D#16 := by decide

/-! ## The other forms of the update, messages, frames -/

/-- S1 by R43; S4 -/
theorem test_bit_serial : crcAStepBits 0x6363#16 0x12#8 = 0x626D#16 ∧ crcAStepBits 0x0000#16 0xFF#8 = 0x0F78#16 := by decide
/-- S2 by the table of 95 4.4 -/
theorem test_table : crcAStepTable 0x626D#16 0x34#8 = 0xCF26#16 := by decide
/-- X1, X3, X4, V3, V22 -/
theorem test_messages : crcA [0x00#8, 0x00#8] = 0x1EA0#16 ∧
    crcABytes [0x31#8, 0x32#8, 0x33#8, 0x34#8, 0x35#8, 0x36#8, 0x37#8, 0x38#8, 0x39#8] = (0x05#8, 0xBF#8) ∧
    crcABytes [0x50#8, 0x00#8] = (0x57#8, 0xCD#8) ∧ crcA [0x34#8, 0x12#8] = 0xFCF1#16 ∧
    frame [0x93#8, 0x70#8, 0x88#8, 0x04#8, 0x12#8, 0x34#8, 0xAA#8] =
      [0x93#8, 0x70#8, 0x88#8, 0x04#8, 0x12#8, 0x34#8, 0xAA#8, 0xBA#8, 0x90#8] := by decide
/-- Z1, Z6, Z7 -/
theorem test_residue : crcA [0x12#8, 0x34#8, 0x26#8, 0xCF#8] = 0x0000#16 ∧
    crcA [0x12#8, 0x34#8, 0x26#8, 0xCE#8] = 0x1189#16 ∧ crcA [0x12#8, 0x35#8, 0x26#8, 0xCF#8] = 0x5ADC#16 := by decide
/-- R36, R37: a commented UPD, P3's CHECK line, and lines R36 has no form for. -/
theorem test_read_lines :
    readLine ['U', 'P', 'D', ' ', '0', 'x', '1', 'F', ' ', ';', 'x'] = some (.upd 0x1F#8) ∧
    readLine ['C', 'H', 'E', 'C', 'K', ' ', '0', 'x', 'C', '2', ' ', '0', 'x', '0', '0', ' ', '0', 'x', 'E', '8'] =
      some (.check [0xC2#8] 0x00#8 0xE8#8) ∧
    readLine ['U', 'P', 'D'] = none ∧ readLine ['n', 'o', 'p'] = none ∧ readLine ['F', 'R', 'A', 'M', 'E'] = none := by
  decide

/-- R36: a listing of two lines is the beats 0x100 and 0x212, in order (P1). -/
theorem test_assemble :
    assemble [['I', 'N', 'I', 'T', ' ', ';'], ['U', 'P', 'D', ' ', '0', 'x', '1', '2']] =
      some [⟨false, 0b01#2, 0x00#8⟩, ⟨false, 0b10#2, 0x12#8⟩] := by decide

/-- P5 beat 2, B9: the word listed beside RST is presented and not decoded. -/
theorem test_word_beside_rst :
    AsmLine.beatsBeside .rst (some 0x204#10) = [⟨true, 0b10#2, 0x04#8⟩] ∧
    crcAfter (step { crc := 0x607D#16, beats := AsmLine.beatsBeside .rst (some 0x204#10) }) = some 0x6363#16 ∧
    crcAfter (step { crc := 0x626D#16, beats := AsmLine.beatsBeside .rst (some 0x3FF#10) }) = some 0x6363#16 := by decide

/-! ## Witnesses: the hypotheses of each statement can be met, clause by clause -/

theorem witness_EveryWordSelectsExactlyItsTableRow :
    "NOP" ∈ opcodeTable.map OpcodeRow.mnemonic ∧ "RESERVED" ∈ opcodeTable.map OpcodeRow.mnemonic := by decide

theorem witness_DecodeAndEncodeAgree :
    encode .nop = some 0x000#10 ∧ encode .init = some 0x100#10 ∧ encode (.upd 0x00#8) = some 0x200#10 ∧
    encode (.upd 0xFF#8) = some 0x2FF#10 ∧ 10 ≤ 10 ∧ 10 ≤ 16 := by decide

theorem witness_NopAndInitIgnoreDin : (0b00#2 = 0b00#2 ∨ 0b00#2 = 0b01#2) ∧ (0b01#2 = 0b00#2 ∨ 0b01#2 = 0b01#2) := by decide

theorem witness_StepRunsTheDecodedCommand :
    (withWord 0x6363#16 0x2FF#10).beats = [⟨false, 0b10#2, 0xFF#8⟩] ∧
    (withWord 0x6363#16 0x3FF#10).beats = [⟨false, 0b11#2, 0xFF#8⟩] ∧
    decodeTableWord 16 0x000 = some .nop ∧ decodeTableWord 16 0x3FF = some .reserved := by decide

theorem witness_StepFollowsTheCompleteStepRule :
    (withReset 0x0000#16 0x3FF#10).beats = [⟨true, 0b11#2, 0xFF#8⟩] ∧
    (withWord 0x0000#16 0x0FF#10).beats = [⟨false, 0b00#2, 0xFF#8⟩] ∧
    (withWord 0x0000#16 0x100#10).beats = [⟨false, 0b01#2, 0x00#8⟩] ∧
    (withWord 0x0000#16 0x200#10).beats = [⟨false, 0b10#2, 0x00#8⟩] ∧
    (withWord 0x0000#16 0x300#10).beats = [⟨false, 0b11#2, 0x00#8⟩] := by decide

theorem witness_ResetOverridesEveryCommand : (withReset 0x626D#16 0x234#10).beats = [⟨true, 0b10#2, 0x34#8⟩] := by decide

theorem witness_StepWithoutABeatHoldsEverything : State.reset.beats = [] := rfl

/-- One beat done, one not yet: the run of the first answers a next state. -/
theorem witness_CommandsTakeEffectInOrderOneABeat :
    step (withWord 0x6363#16 0x212#10) = .next { crc := 0x626D#16, beats := [] } ∧
    run 1 { crc := 0x6363#16, beats := [Beat.ofWord 0x212#10] } = .next { crc := 0x626D#16, beats := [] } := ⟨rfl, rfl⟩

theorem witness_OnlyResetInitAndUpdWriteCrc :
    (step (withReset 0x0000#16 0x000#10) = .next { crc := 0x6363#16, beats := [] } ∧ (0x6363#16 : Crc) ≠ 0x0000#16) ∧
    (step (withWord 0xCF26#16 0x100#10) = .next { crc := 0x6363#16, beats := [] } ∧ (0x6363#16 : Crc) ≠ 0xCF26#16) ∧
    (step (withWord 0x6363#16 0x212#10) = .next { crc := 0x626D#16, beats := [] } ∧ (0x626D#16 : Crc) ≠ 0x6363#16) :=
  ⟨⟨rfl, by decide⟩, ⟨rfl, by decide⟩, ⟨rfl, by decide⟩⟩

theorem witness_NopHoldsTheRegister :
    ({ crc := 0x626D#16, beats := [⟨false, 0b00#2, 0x00#8⟩, ⟨false, 0b00#2, 0xFF#8⟩, Beat.ofWord 0x100#10] } : State).beats =
      [0x00#8, 0xFF#8].map (fun d => (⟨false, 0b00#2, d⟩ : Beat)) ++ [Beat.ofWord 0x100#10] := by decide

theorem witness_InitLoadsThePreset :
    exec .init { crc := 0xCF26#16, beats := [] } = .next { crc := 0x6363#16, beats := [] } ∧
    (withWord 0x0000#16 0x100#10).beats = (withWord 0xFFFF#16 0x100#10).beats := ⟨rfl, rfl⟩

theorem witness_OnlyTheReservedCommandIsRefused :
    step (withWord 0x626D#16 0x300#10) = .refused .reservedCommand ∧
    step (withWord 0x626D#16 0x3FF#10) = .refused .reservedCommand := ⟨rfl, rfl⟩

theorem witness_NoCommandFaults : Instr.nop ≠ .reserved ∧ Instr.init ≠ .reserved ∧ Instr.upd 0xFF#8 ≠ .reserved := by decide

theorem witness_OutputsSplitTheRegister : (0 < 8 ∧ 7 < 8) ∧
    step (withWord 0x6363#16 0x212#10) = .next { crc := 0x626D#16, beats := [] } := ⟨by decide, rfl⟩

theorem witness_ReflectedConstantIsTheReversedPolynomial : 0 < 16 ∧ 15 < 16 := by decide

theorem witness_UpdateIsLinearOverXor : [0x12#8, 0x34#8].length = [0xFF#8, 0x00#8].length := rfl

/-- The update itself meets the three hypotheses of the last clause. -/
theorem witness_BasisValuesDefineTheUpdate : ∃ g : Crc → Byte → Crc,
    (∀ c c' b b', g (c ^^^ c') (b ^^^ b') = g c b ^^^ g c' b') ∧
    (∀ i, i < 8 → g 0x0000#16 (0x01#8 <<< i) = crcAStep 0x0000#16 (0x01#8 <<< i)) ∧
    (∀ i, i < 16 → g (0x0001#16 <<< i) 0x00#8 = crcAStep (0x0001#16 <<< i) 0x00#8) ∧ 8 ≤ 8 ∧ 15 < 16 := by
  refine ⟨crcAStep, fun c c' b b' => ?_, fun _ _ => rfl, fun _ _ => rfl, by decide, by decide⟩
  have h : (b ^^^ b') ^^^ (lowByte c ^^^ lowByte c') = (b ^^^ lowByte c) ^^^ (b' ^^^ lowByte c') := by ac_rfl
  unfold crcAStep
  rw [highByte_xor, lowByte_xor, h, foldNibble_xor, feedback_xor, BitVec.setWidth_xor]
  ac_rfl

/-- P2 and P1 in words: a reset, a pause inside the message; INIT; and the first message after reset without INIT. -/
theorem witness_BeatsOfAMessageComputeItsCrc :
    presentsMessage [0x50#8, 0x00#8]
      [Beat.resetBeat, Beat.ofWord 0x250#10, Beat.ofWord 0x000#10, Beat.ofWord 0x0FF#10, Beat.ofWord 0x200#10] = true ∧
    presentsMessage [0x12#8, 0x34#8] [Beat.ofWord 0x1A5#10, Beat.ofWord 0x212#10, Beat.ofWord 0x234#10] = true ∧
    presentsMessage [] [Beat.ofWord 0x100#10] = true ∧
    (State.reset.crc = 0x6363#16 ∧ presentsBytes [0x00#8] [Beat.ofWord 0x000#10, Beat.ofWord 0x200#10] = true) := by decide

theorem witness_OutputsShowTheCrcOfEveryInitialSegment :
    ({ crc := 0x0000#16, beats := [Beat.ofWord 0x100#10, Beat.ofWord 0x212#10, Beat.ofWord 0x234#10, Beat.ofWord 0x000#10] }
      : State).beats = messageBeats [0x12#8, 0x34#8] ++ [Beat.ofWord 0x000#10] := by decide

theorem witness_ResultDoesNotDependOnHistory :
    (Beat.ofWord 0x100#10).event = .preset ∧ Beat.resetBeat.event = .preset ∧
    (withWord 0x0000#16 0x100#10).beats = [Beat.ofWord 0x100#10] ∧
    (withWord 0xFFFF#16 0x100#10).beats = [Beat.ofWord 0x100#10] := by decide

/-- P4: the host forgets INIT. -/
theorem witness_MissingInitJoinsTheMessages :
    (0xCF26#16 : Crc) = crcA [0x12#8, 0x34#8] ∧
    presentsBytes [0x00#8, 0x00#8] [Beat.ofWord 0x000#10, Beat.ofWord 0x200#10, Beat.ofWord 0x200#10] = true := by decide

theorem witness_HeldByteIsAbsorbedOncePerUpdBeat :
    (∀ c ∈ [0b10#2, 0b00#2, 0b10#2], c = 0b00#2 ∨ c = 0b10#2) ∧
    ({ crc := 0x6363#16, beats := [⟨false, 0b10#2, 0x34#8⟩, ⟨false, 0b00#2, 0x34#8⟩, ⟨false, 0b10#2, 0x34#8⟩] } : State).beats =
      [0b10#2, 0b00#2, 0b10#2].map (fun c => (⟨false, c, 0x34#8⟩ : Beat)) ++ [] := by decide

theorem witness_AssemblerTextReadsBack :
    AsmLine.wellFormed .blank = true ∧ AsmLine.wellFormed .nop = true ∧ AsmLine.wellFormed .init = true ∧
    AsmLine.wellFormed (.upd 0xFF#8) = true ∧ AsmLine.wellFormed .rst = true ∧ AsmLine.wellFormed (.crca []) = true ∧
    AsmLine.wellFormed (.frame [0x00#8]) = true ∧ AsmLine.wellFormed (.check [0xC2#8, 0xFF#8] 0xC2#8 0xE8#8) = true ∧
    AsmLine.wellFormed (.frame []) = false ∧ AsmLine.wellFormed (.check [] 0x63#8 0x63#8) = false := by decide

theorem witness_PseudoInstructionsExpandAndCompute :
    ({ crc := 0x0000#16, beats := messageBeats [] } : State).beats = AsmLine.beats (.crca []) ∧
    ({ crc := 0xFFFF#16, beats := messageBeats [0xC2#8, 0xFF#8, 0xC2#8, 0xE8#8] } : State).beats =
      AsmLine.beats (.check [0xC2#8, 0xFF#8] 0xC2#8 0xE8#8) := ⟨rfl, rfl⟩

/-- A run that completes. -/
theorem witness_RunAppliesTheStepRuleToEachBeat :
    run 1 (withWord 0x6363#16 0x212#10) = .next { crc := 0x626D#16, beats := [] } := rfl

/-- P6: the accepted beat, then the refused one. -/
theorem witness_AcceptedRunsCompleteAndOthersAreRefused :
    (withWord 0x6363#16 0x2FF#10).safe = true ∧ (withReset 0x6363#16 0x3FF#10).safe = true ∧
    [Beat.ofWord 0x212#10].all Beat.accepted = true ∧ (Beat.ofWord 0x300#10).rst = false ∧
    (Beat.ofWord 0x300#10).cmd = 0b11#2 := by decide

theorem witness_CrcTracksTheMessageInProgress :
    TracksMessage [] [Beat.ofWord 0x212#10] (State.reset.withFetchWord 16 0x212) ∧
    step (State.reset.withFetchWord 16 0x212) = .next { crc := 0x626D#16, beats := [] } ∧
    run 1 (State.reset.withFetchWord 16 0x212) = .next { crc := 0x626D#16, beats := [] } :=
  ⟨⟨[], rfl, rfl, rfl⟩, rfl, rfl⟩

end Sys2Proof.Tests
end

section
/-! SUPPORT. Beats on which `rst` = 0: the step runs the command that the presented word decodes to. -/

namespace Sys2Proof.Machine

/-- The ports carry the word the beat was built from (R30, R36). -/
@[simp] theorem Beat.word_ofWord (w : CmdWord) : (Beat.ofWord w).word = w := commandWord_fields w

@[simp] theorem Beat.rst_ofWord (w : CmdWord) : (Beat.ofWord w).rst = false := rfl

theorem execBeat_of_rst_false {b : Beat} (hr : b.rst = false) (s : State) :
    execBeat b s = exec (decode b.word) s := by
  simp [execBeat, hr]

/-- Taking the first beat leaves the later ones and the register (R27). -/
theorem State.dropBeat_of_beats {s : State} {b : Beat} {bs : List Beat} (h : s.beats = b :: bs) :
    s.dropBeat = { s with beats := bs } :=
  State.eq_of_fields rfl (by simp [h])

theorem step_of_command {s : State} {b : Beat} {bs : List Beat} (h : s.beats = b :: bs) (hr : b.rst = false) :
    step s = exec (decode b.word) { s with beats := bs } := by
  rw [step_of_beat h, execBeat_of_rst_false hr, State.dropBeat_of_beats h]

theorem step_present_ofWord (s : State) (w : CmdWord) : step (s.present (Beat.ofWord w)) = exec (decode w) s := by
  rw [step_of_command (s.present_beats _) (Beat.rst_ofWord w), Beat.word_ofWord]
  rfl

/-- A number decodes exactly when its low `nbits` bits fit the ten wires of the port (log entry 6). -/
theorem decodeTableWord_eq_some_iff {nbits w : Nat} {i : Instr} :
    decodeTableWord nbits w = some i ↔
      w % 2 ^ nbits < 1024 ∧ decode (BitVec.ofNat 10 (w % 2 ^ nbits)) = i := by
  by_cases hw : w % 2 ^ nbits < 1024
  · simp [decodeTableWord, decodeNumber, hw]
  · simp [decodeTableWord, decodeNumber, hw]

/-- Settles O5: the first clause is the step on a beat with `rst` = 0; the second is the same step on the beat of the
number presented. -/
theorem stepRunsTheDecodedCommand : Obligations.StepRunsTheDecodedCommand := by
  unfold Obligations.StepRunsTheDecodedCommand
  constructor
  · intro s b bs hb hr
    exact step_of_command hb hr
  · intro s nbits w i hi
    obtain ⟨-, hdec⟩ := decodeTableWord_eq_some_iff.mp hi
    calc step (s.withFetchWord nbits w)
        = exec (decode (BitVec.ofNat 10 (w % 2 ^ nbits))) s := step_present_ofWord s _
      _ = exec i s := by rw [hdec]

end Sys2Proof.Machine
end

section
/-! SUPPORT. The generator polynomial as a sum of monomials, and the reflected constant as its reversal (R5, G1). -/

namespace Sys2Proof.Config

/-- x^16 + x^12 + x^5 + 1 over GF(2): the sum of its four monomials (R5, D6). -/
theorem generatorPoly_eq_sum_twoPow :
    generatorPoly = BitVec.twoPow 17 16 ^^^ BitVec.twoPow 17 12 ^^^ BitVec.twoPow 17 5 ^^^ BitVec.twoPow 17 0 := by
  decide

theorem generatorPoly_getLsbD_iff (i : Nat) :
    generatorPoly.getLsbD i = true ↔ i = 16 ∨ i = 12 ∨ i = 5 ∨ i = 0 := by
  rw [generatorPoly_eq_sum_twoPow]
  simp only [BitVec.getLsbD_xor, BitVec.getLsbD_twoPow]
  grind

/-- The polynomial without its top term, its bits in reverse order (R5). -/
theorem polyReflected_eq_reverse : polyReflected = (generatorPoly.setWidth 16).reverse := by
  decide

theorem polyReflected_getLsbD {i : Nat} (hi : i < 16) :
    polyReflected.getLsbD i = generatorPoly.getLsbD (15 - i) := by
  have hlow : 15 - i < 16 := by omega
  rw [polyReflected_eq_reverse, BitVec.getLsbD_reverse]
  simp [BitVec.getMsbD, hi, hlow]

/-- Settles O17, from the polynomial as a sum of monomials and the constant as its reversal. -/
theorem reflectedConstantIsTheReversedPolynomial : Obligations.ReflectedConstantIsTheReversedPolynomial := by
  unfold Obligations.ReflectedConstantIsTheReversedPolynomial
  exact ⟨generatorPoly_getLsbD_iff, fun _ hi => polyReflected_getLsbD hi, rfl⟩

end Sys2Proof.Config
end

section
/-! SUPPORT. The step read by the beat's event: which beats have which event, and the register after the step as what the
event writes (spec/10_state.md R11, spec/70_reset_and_hazards.md R70). -/

namespace Sys2Proof.Machine

@[simp] theorem BeatEvent.write_hold (c : Crc) : BeatEvent.hold.write c = c := rfl
@[simp] theorem BeatEvent.write_preset (c : Crc) : BeatEvent.preset.write c = Config.crcAPreset := rfl
@[simp] theorem BeatEvent.write_absorb (c : Crc) (d : Byte) : (BeatEvent.absorb d).write c = crcAStep c d := rfl
@[simp] theorem BeatEvent.write_refuse (c : Crc) : BeatEvent.refuse.write c = c := rfl

theorem Beat.event_eq_preset_iff (b : Beat) : b.event = .preset ↔ b.rst = true ∨ decode b.word = .init := by
  cases hr : b.rst with
  | true => simp [Beat.event, hr]
  | false => cases hd : decode b.word <;> simp [Beat.event, hr, hd]

/-- Only a UPD beat absorbs, and what it absorbs is its `din` (R32, R42). -/
theorem Beat.event_eq_absorb_iff (b : Beat) (d : Byte) : b.event = .absorb d ↔ b = ⟨false, 0b10#2, d⟩ := by
  obtain ⟨c, d', rfl⟩ | ⟨d', rfl⟩ | ⟨d', rfl⟩ | ⟨d', rfl⟩ | ⟨d', rfl⟩ := b.kinds <;> simp

/-- The inversion of `step` with the three writing events read as one: a beat that is not refused writes what its event
says, and leaves the later beats. -/
theorem step_next_writes_event {s t : State} (h : step s = .next t) :
    (s.beats = [] ∧ t = s) ∨
    ∃ b bs, s.beats = b :: bs ∧ b.event ≠ .refuse ∧ t = { crc := b.event.write s.crc, beats := bs } := by
  obtain hidle | ⟨b, bs, hb, ⟨he, rfl⟩ | ⟨he, rfl⟩ | ⟨d, he, rfl⟩⟩ := step_next_cases h
  · exact .inl hidle
  all_goals exact .inr ⟨b, bs, hb, by simp [he], State.eq_of_fields (by simp [he]) (by simp [hb])⟩

/-- An INIT or reset beat leaves nothing of the old register (R17). -/
theorem step_of_preset {s : State} {b : Beat} {bs : List Beat} (hb : s.beats = b :: bs) (he : b.event = .preset) :
    step s = .next { crc := Config.crcAPreset, beats := bs } := by
  rw [step_of_beat hb, execBeat_eq, he, State.dropBeat_of_beats hb]
  rfl

/-- Settles O10: by what the step can do, and which beats preset or absorb. -/
theorem onlyResetInitAndUpdWriteCrc : Obligations.OnlyResetInitAndUpdWriteCrc := by
  unfold Obligations.OnlyResetInitAndUpdWriteCrc
  intro s t hst hne
  obtain ⟨-, rfl⟩ | ⟨b, bs, hb, ⟨-, rfl⟩ | ⟨he, rfl⟩ | ⟨d, he, rfl⟩⟩ := step_next_cases hst
  · exact absurd rfl hne
  · exact absurd s.dropBeat_crc hne
  · exact ⟨b, bs, hb, .inl ⟨b.event_eq_preset_iff.mp he, rfl⟩⟩
  · obtain rfl := (b.event_eq_absorb_iff d).mp he
    exact ⟨_, bs, hb, .inr ⟨rfl, d, decode_upd d, rfl, rfl⟩⟩

/-- Settles O29: the first step answers the same state from both, and the rest of the run starts there. -/
theorem resultDoesNotDependOnHistory : Obligations.ResultDoesNotDependOnHistory := by
  unfold Obligations.ResultDoesNotDependOnHistory
  intro s t b bs n hs ht he
  have hstepS := step_of_preset hs he
  have hstepT := step_of_preset ht he
  constructor
  · rw [run_succ_of_next n hstepS, run_succ_of_next n hstepT]
  · rw [trace_succ_of_next n hstepS, trace_succ_of_next n hstepT, List.tail_cons, List.tail_cons]

end Sys2Proof.Machine
end

section
/-! SUPPORT. The invariant of runs: the CRC of the message in progress is the fold of what the beats' events write
(spec/10_state.md R17, spec/41_sequences.md R56, spec/70_reset_and_hazards.md R72, R76). -/

namespace Sys2Proof.Machine

/-- What every step keeps, every run keeps. -/
theorem run_preserves {P : State → Prop} (hstep : ∀ s t, P s → step s = .next t → P t)
    {n : Nat} {s t : State} (hs : P s) (hrun : run n s = .next t) : P t := by
  induction n generalizing s with
  | zero => rw [run_zero] at hrun; cases hrun; exact hs
  | succ n ih =>
    cases hst : step s with
    | next u => rw [run_succ_of_next n hst] at hrun; exact ih (hstep s u hs hst) hrun
    | fault r => cases r
    | refused r => rw [run_succ_of_refused n hst] at hrun; cases hrun

theorem crcA_concat (m : List Byte) (d : Byte) : crcA (m ++ [d]) = crcAStep (crcA m) d := by
  simp [crcA, absorbAll_append]

/-- The message in progress and the register go together: absorbing, beginning anew and holding mean the same to both. -/
theorem crcA_messageAfter (m : List Byte) (bs : List Beat) :
    crcA (messageAfter m bs) = (bs.map Beat.event).foldl BeatEvent.write (crcA m) := by
  induction bs generalizing m with
  | nil => rfl
  | cons b bs ih =>
    rw [List.map_cons, List.foldl_cons, messageAfter]
    cases b.event with
    | hold => exact ih m
    | preset => exact ih []
    | absorb d => rw [BeatEvent.write_absorb, ← crcA_concat]; exact ih (m ++ [d])
    | refuse => exact ih m

theorem crcA_messageAfter_concat (m : List Byte) (bs : List Beat) (b : Beat) :
    crcA (messageAfter m (bs ++ [b])) = b.event.write (crcA (messageAfter m bs)) := by
  simp [crcA_messageAfter]

/-- The beat taken by the step moves from the beats to come to the beats done. -/
theorem tracksMessage_step {m : List Byte} {bs₀ : List Beat} {s t : State}
    (hs : TracksMessage m bs₀ s) (hst : step s = .next t) : TracksMessage m bs₀ t := by
  obtain ⟨-, rfl⟩ | ⟨b, bs, hb, hne, rfl⟩ := step_next_writes_event hst
  · exact hs
  · obtain ⟨done, hsplit, hacc, hcrc⟩ := hs
    refine ⟨done ++ [b], ?_, ?_, ?_⟩
    · simp [hsplit, hb]
    · simp [List.all_append, hacc, b.accepted_iff.mpr hne]
    · rw [crcA_messageAfter_concat, hcrc]

/-- Settles O38: the step lemma, and the induction over the run. -/
theorem crcTracksTheMessageInProgress : Obligations.CrcTracksTheMessageInProgress := by
  unfold Obligations.CrcTracksTheMessageInProgress
  constructor
  · intro m₀ bs₀ s t hs hst
    exact tracksMessage_step hs hst
  · intro m₀ bs₀ s t n hs hrun
    exact run_preserves (fun _ _ => tracksMessage_step) hs hrun

end Sys2Proof.Machine
end

section
/-! SUPPORT. The two halves of the register, which the outputs show (spec/10_state.md R15). -/

namespace Sys2Proof.Machine

theorem lowByte_getLsbD (c : Crc) {i : Nat} (hi : i < 8) : (lowByte c).getLsbD i = c.getLsbD i := by
  simp [lowByte, hi]

theorem highByte_getLsbD (c : Crc) {i : Nat} (hi : i < 8) : (highByte c).getLsbD i = c.getLsbD (i + 8) := by
  simp [highByte, hi, Nat.add_comm]

/-- A register value is its two bytes. -/
theorem highByte_append_lowByte (c : Crc) : (highByte c ++ lowByte c : BitVec 16) = c := by
  have h := BitVec.extractLsb'_append_extractLsb'_eq_extractLsb' (x := c) (show 8 = 0 + 8 from rfl) (len₂ := 8)
  simpa [highByte, lowByte] using h

theorem crcB1_append_crcB0 (s : State) : (crcB1 s ++ crcB0 s : BitVec 16) = s.crc := highByte_append_lowByte s.crc

/-- The outputs hide nothing of the register, and show nothing else. -/
theorem outputs_eq_iff (s t : State) : outputs s = outputs t ↔ s.crc = t.crc := by
  constructor
  · intro h
    obtain ⟨h0, h1⟩ := Prod.mk.inj h
    rw [← crcB1_append_crcB0 s, h0, h1, crcB1_append_crcB0 t]
  · intro h
    simp [outputs, crcB0, crcB1, h]

/-- Settles O16, from the two halves of the register and the unfolding of the trace. -/
theorem outputsSplitTheRegister : Obligations.OutputsSplitTheRegister := by
  unfold Obligations.OutputsSplitTheRegister
  refine ⟨fun s => ⟨rfl, crcB1_append_crcB0 s⟩, ?bits, outputs_eq_iff, ?seen, by decide⟩
  case bits =>
    intro s i hi
    exact ⟨lowByte_getLsbD s.crc hi, highByte_getLsbD s.crc hi⟩
  case seen =>
    intro s t n hst
    exact trace_succ_of_next n hst

end Sys2Proof.Machine
end

section
/-! SUPPORT. A step takes exactly one beat, and a run over the first beats does not depend on the later ones
(spec/20_memory.md R27, spec/70_reset_and_hazards.md R77). -/

namespace Sys2Proof.Machine

/-- Every step that answers a state drops the first beat; with no beat to come there is none to drop (log entry 2). -/
theorem step_next_beats {s t : State} (h : step s = .next t) : t.beats = s.beats.tail := by
  obtain ⟨hnil, rfl⟩ | ⟨b, bs, hb, -, rfl⟩ := step_next_writes_event h
  · simp [hnil]
  · simp [hb]

/-- The inversion of `run`: a run that answers a state takes a first step that answers one. -/
theorem run_succ_eq_next_iff {n : Nat} {s t : State} :
    run (n + 1) s = .next t ↔ ∃ u, step s = .next u ∧ run n u = .next t := by
  rw [run_succ]
  cases step s <;> simp

/-- The converse of `step_of_event`. -/
theorem event_write_of_step_next {c : Crc} {b : Beat} {bs : List Beat} {t : State}
    (h : step { crc := c, beats := b :: bs } = .next t) :
    b.event ≠ .refuse ∧ t = { crc := b.event.write c, beats := bs } := by
  obtain ⟨hnil, -⟩ | ⟨b', bs', hb, hne, rfl⟩ := step_next_writes_event h
  · cases hnil
  · cases hb
    exact ⟨hne, rfl⟩

/-- The converse of `run_of_events`: a run that answers a state has met no refused beat. -/
theorem events_ne_refuse_of_run {c : Crc} {bs rest : List Beat} {t : State}
    (h : run bs.length { crc := c, beats := bs ++ rest } = .next t) : ∀ b ∈ bs, b.event ≠ .refuse := by
  induction bs generalizing c with
  | nil => simp
  | cons b bs ih =>
    obtain ⟨u, hstep, hrun⟩ := run_succ_eq_next_iff.mp h
    obtain ⟨hb, rfl⟩ := event_write_of_step_next hstep
    exact List.forall_mem_cons.mpr ⟨hb, ih hrun⟩

/-- Settles O9: a run over exactly its beats has none refused, so both it and the run with more beats behind end with
what the beats' events write. -/
theorem commandsTakeEffectInOrderOneABeat : Obligations.CommandsTakeEffectInOrderOneABeat := by
  unfold Obligations.CommandsTakeEffectInOrderOneABeat
  refine ⟨fun s t => step_next_beats, ?runs⟩
  case runs =>
    intro c bs bs' t n hrun
    have hnone : ∀ b ∈ bs, b.event ≠ .refuse := events_ne_refuse_of_run (rest := []) (by rwa [List.append_nil])
    have halone := run_of_events c bs [] hnone
    rw [List.append_nil, hrun] at halone
    cases halone
    have hlonger := run_of_events c bs bs' hnone
    exact ⟨rfl, hlonger, run_add_of_next n hlonger⟩

end Sys2Proof.Machine
end

section
/-! SUPPORT. Command words by their two fields: which words decode to a command, and that `din` decides nothing but UPD's
operand (spec/30_encoding.md R31, R32, R34). -/

namespace Sys2Proof

/-- Every command word is `{cmd, din}` (R30). -/
theorem exists_commandWord (w : CmdWord) : ∃ c d, w = commandWord c d :=
  ⟨_, _, (commandWord_fields w).symm⟩

theorem toNat_commandWord (c : CmdCode) (d : Byte) : (commandWord c d).toNat = 256 * c.toNat + d.toNat := by
  rw [commandWord, BitVec.toNat_append, ← Nat.shiftLeft_add_eq_or_of_lt d.isLt, Nat.shiftLeft_eq]
  omega

/-- The table's mask keeps the command code (R31). -/
theorem commandWord_and_mask (c : CmdCode) (d : Byte) : commandWord c d &&& 0x300#10 = commandWord c 0x00#8 := by
  have hmask : 0x300#10 = commandWord 0b11#2 0x00#8 := by decide
  rw [hmask, commandWord, commandWord, BitVec.and_append, BitVec.and_zero]
  congr 1
  exact BitVec.and_allOnes

theorem commandWord_inj {c c' : CmdCode} {d d' : Byte} :
    commandWord c d = commandWord c' d' ↔ c = c' ∧ d = d' := by
  constructor
  · intro h
    have hc := congrArg cmdField h
    have hd := congrArg dinField h
    simp only [cmdField_commandWord, dinField_commandWord] at hc hd
    exact ⟨hc, hd⟩
  · rintro ⟨rfl, rfl⟩
    rfl

/-- `din` decides nothing of which command a word is (R32, R34). -/
theorem decode_mnemonic_ignores_din (c : CmdCode) (d d' : Byte) :
    (decode (commandWord c d)).mnemonic = (decode (commandWord c d')).mnemonic := by
  obtain rfl | rfl | rfl | rfl := cmdCode_cases c
  · simp only [decode_nop]
  · simp only [decode_init]
  · simp only [decode_upd, Instr.mnemonic]
  · simp only [decode_reserved]

theorem decode_eq_upd_iff (w : CmdWord) (d : Byte) : decode w = .upd d ↔ w = commandWord 0b10#2 d := by
  obtain ⟨c, d', rfl⟩ := exists_commandWord w
  rw [commandWord_inj]
  obtain rfl | rfl | rfl | rfl := cmdCode_cases c
  · simp [decode_nop]
  · simp [decode_init]
  · simp [decode_upd]
  · simp [decode_reserved]

theorem decode_commandWord_eq_reserved_iff (c : CmdCode) (d : Byte) :
    decode (commandWord c d) = .reserved ↔ c = 0b11#2 := by
  obtain rfl | rfl | rfl | rfl := cmdCode_cases c
  · simp [decode_nop]
  · simp [decode_init]
  · simp [decode_upd]
  · simp [decode_reserved]

/-- The reserved words are the upper quarter of the numbers. -/
theorem decode_eq_reserved_iff (w : CmdWord) : decode w = .reserved ↔ 0x300 ≤ w.toNat := by
  obtain ⟨c, d, rfl⟩ := exists_commandWord w
  have hc := c.isLt
  have hd := d.isLt
  rw [decode_commandWord_eq_reserved_iff, toNat_commandWord, ← BitVec.toNat_inj, BitVec.toNat_ofNat]
  omega

/-- Settles O1: each word is the code and the byte its bits spell. -/
theorem decodeReadsWordsOfEveryCommand : Obligations.DecodeReadsWordsOfEveryCommand := by
  unfold Obligations.DecodeReadsWordsOfEveryCommand
  exact ⟨decode_nop 0x00#8, decode_nop 0xFF#8, decode_init 0x00#8, decode_init 0x63#8,
    decode_upd 0x12#8, decode_upd 0xFF#8, decode_reserved 0x00#8, decode_reserved 0xFF#8⟩

end Sys2Proof
end

section
/-! SUPPORT. The opcode map: each word's one row, and the 256 words of each row (spec/30_encoding.md R31). -/

namespace Sys2Proof

theorem OpcodeRow.selects_iff (r : OpcodeRow) (w : CmdWord) : r.selects w = true ↔ w &&& r.mask = r.pattern :=
  beq_iff_eq

/-- The row of a word is that of its code: the four patterns neither overlap nor leave a word out. -/
theorem rows_selecting (w : CmdWord) :
    (opcodeTable.filter (fun r => r.selects w)).map OpcodeRow.mnemonic = [(decode w).mnemonic] := by
  obtain ⟨c, d, rfl⟩ := exists_commandWord w
  rw [decode_mnemonic_ignores_din c d 0x00#8]
  simp only [opcodeTable, OpcodeRow.selects, List.filter_cons, List.filter_nil, commandWord_and_mask]
  revert c
  decide

/-- The 256 numbers whose command word has the code `c`. -/
def codeBlock (c : CmdCode) : List Nat := (List.range 256).map (256 * c.toNat + ·)

/-- The command words in order are those of the four codes. -/
theorem range_eq_codeBlocks :
    List.range 1024 = codeBlock 0b00#2 ++ codeBlock 0b01#2 ++ codeBlock 0b10#2 ++ codeBlock 0b11#2 := by
  rw [show 1024 = 256 + 256 + 256 + 256 from rfl, List.range_add, List.range_add, List.range_add]
  simp [codeBlock]

theorem decode_mnemonic_of_mem_codeBlock {c : CmdCode} {n : Nat} (hn : n ∈ codeBlock c) :
    (decode (BitVec.ofNat 10 n)).mnemonic = (decode (commandWord c 0x00#8)).mnemonic := by
  obtain ⟨d, hd, rfl⟩ := List.mem_map.mp hn
  have hword : BitVec.ofNat 10 (256 * c.toNat + d) = commandWord c (BitVec.ofNat 8 d) := by
    apply BitVec.eq_of_toNat_eq
    have hc := c.isLt
    rw [List.mem_range] at hd
    rw [toNat_commandWord, BitVec.toNat_ofNat, BitVec.toNat_ofNat]
    omega
  rw [hword, decode_mnemonic_ignores_din]

/-- Of one code's words either all or none have a given row. -/
theorem length_filter_codeBlock (c : CmdCode) (m : String) :
    ((codeBlock c).filter (fun n => (decode (BitVec.ofNat 10 n)).mnemonic == m)).length =
      if (decode (commandWord c 0x00#8)).mnemonic = m then 256 else 0 := by
  rw [List.filter_congr (fun n hn => by rw [decode_mnemonic_of_mem_codeBlock hn])]
  by_cases hm : (decode (commandWord c 0x00#8)).mnemonic = m
  · simp [hm, codeBlock]
  · simp [hm]

theorem words_of_row (m : String) (hm : m ∈ opcodeTable.map OpcodeRow.mnemonic) :
    ((List.range 1024).filter (fun n => (decode (BitVec.ofNat 10 n)).mnemonic == m)).length = 256 := by
  simp only [range_eq_codeBlocks, List.filter_append, List.length_append, length_filter_codeBlock]
  revert m
  decide

/-- Settles O2: by the row of each word, and the four blocks of 256 words. -/
theorem everyWordSelectsExactlyItsTableRow : Obligations.EveryWordSelectsExactlyItsTableRow := by
  unfold Obligations.EveryWordSelectsExactlyItsTableRow
  refine ⟨rfl, OpcodeRow.selects_iff, rows_selecting, words_of_row, ?oneUpdWord,
    decode_init 0x00#8, decode_upd 0x12#8, decode_upd 0xFF#8, decode_nop 0x00#8⟩
  case oneUpdWord =>
    intro d
    exact ⟨commandWord 0b10#2 d, decode_upd d, fun w hw => (decode_eq_upd_iff w d).mp hw⟩

end Sys2Proof
end

section
/-! SUPPORT. The refusal: which beats are refused, and that nothing else is (spec/30_encoding.md R33). -/

namespace Sys2Proof.Machine

theorem Beat.event_eq_refuse_iff (b : Beat) : b.event = .refuse ↔ b.rst = false ∧ b.cmd = 0b11#2 := by
  obtain ⟨c, d, rfl⟩ | ⟨d, rfl⟩ | ⟨d, rfl⟩ | ⟨d, rfl⟩ | ⟨d, rfl⟩ := b.kinds <;> simp

/-- The inversion of a refused step, beside `step_next_cases`. -/
theorem step_eq_refused_iff (s : State) (r : Refusal) :
    step s = .refused r ↔ r = .reservedCommand ∧ ∃ b bs, s.beats = b :: bs ∧ b.event = .refuse := by
  cases hb : s.beats with
  | nil => simp [step_of_no_beat hb]
  | cons b bs =>
    rw [step_of_beat hb, execBeat_eq]
    cases he : b.event <;> simp [he, eq_comm]

/-- Settles O14: the step is refused by the beat's event, which is that of the reserved word with `rst` = 0. -/
theorem onlyTheReservedCommandIsRefused : Obligations.OnlyTheReservedCommandIsRefused := by
  unfold Obligations.OnlyTheReservedCommandIsRefused
  refine ⟨fun _ => rfl, decode_eq_reserved_iff, ?refused, ?recovers⟩
  case refused =>
    intro s r
    simp only [step_eq_refused_iff, Beat.event_eq_refuse_iff]
  case recovers =>
    intro v d bs
    exact ⟨step_of_preset rfl (Beat.event_reset _ d), step_of_preset rfl (Beat.event_init d)⟩

/-- The step sees of its beat only the event. -/
theorem step_congr_event {b b' : Beat} (he : b.event = b'.event) (c : Crc) (bs : List Beat) :
    step { crc := c, beats := b :: bs } = step { crc := c, beats := b' :: bs } := by
  rw [step_of_beat rfl, step_of_beat rfl, execBeat_eq, execBeat_eq, he]
  rfl

/-- Settles O4: the words of NOP are one event, and so are those of INIT. -/
theorem nopAndInitIgnoreDin : Obligations.NopAndInitIgnoreDin := by
  unfold Obligations.NopAndInitIgnoreDin
  refine ⟨?decodes, ?steps, rfl, rfl, rfl, rfl⟩
  case decodes =>
    intro d d'
    exact ⟨by rw [decode_nop, decode_nop], by rw [decode_init, decode_init]⟩
  case steps =>
    rintro c d d' v bs (rfl | rfl)
    · exact step_congr_event (by rw [Beat.event_nop, Beat.event_nop]) v bs
    · exact step_congr_event (by rw [Beat.event_init, Beat.event_init]) v bs

end Sys2Proof.Machine
end

section
/-! SUPPORT. The residue: which two bytes bring the register to zero (spec/41_sequences.md R54). -/

namespace Sys2Proof.Machine

theorem ushiftRight_8_8 (c : Crc) : c >>> 8 >>> 8 = 0#16 := by
  rw [← BitVec.shiftRight_add]
  exact BitVec.ushiftRight_eq_zero (by decide)

theorem lowByte_ushiftRight_8 (c : Crc) : lowByte (c >>> 8) = highByte c := by
  rw [← highByte_setWidth, lowByte, BitVec.extractLsb'_setWidth_of_le (by decide)]
  simp

/-- The upper byte after an update is zero only if the byte absorbed was the register's low one: then the feedback is zero
and the update is the shift alone. -/
theorem crcAStep_upper_zero_iff (c : Crc) (b : Byte) : crcAStep c b >>> 8 = 0#16 ↔ b = lowByte c := by
  rw [crcAStep_eq_shift, BitVec.ushiftRight_xor_distrib, ushiftRight_8_8, BitVec.zero_xor]
  constructor
  · intro h
    exact BitVec.xor_eq_zero_iff.mp (feedback_upper_zero _ h)
  · rintro rfl
    simp

theorem crcAStep_lowByte (c : Crc) : crcAStep c (lowByte c) = c >>> 8 := by
  simp [crcAStep_eq_shift]

theorem crcAStep_eq_zero_iff (c : Crc) (b : Byte) : crcAStep c b = 0#16 ↔ b = lowByte c ∧ c >>> 8 = 0#16 := by
  constructor
  · intro h
    obtain rfl := (crcAStep_upper_zero_iff c b).mp (by simp [h])
    exact ⟨rfl, by rw [← crcAStep_lowByte, h]⟩
  · rintro ⟨rfl, hc⟩
    rw [crcAStep_lowByte, hc]

theorem absorbAll_pair_eq_zero_iff (c : Crc) (x y : Byte) :
    absorbAll c [x, y] = 0#16 ↔ x = lowByte c ∧ y = highByte c := by
  rw [absorbAll_cons, absorbAll_cons, absorbAll_nil, crcAStep_eq_zero_iff, crcAStep_upper_zero_iff, and_comm]
  apply and_congr_right
  rintro rfl
  rw [crcAStep_lowByte, lowByte_ushiftRight_8]

theorem crcA_append_pair_eq_zero_iff (buf : List Byte) (x y : Byte) :
    crcA (buf ++ [x, y]) = 0#16 ↔ (x, y) = crcABytes buf := by
  rw [crcA, absorbAll_append, absorbAll_pair_eq_zero_iff, crcABytes, Prod.mk.injEq, crcA]

end Sys2Proof.Machine
end

section
/-! SUPPORT. The beats of the assembler lines, and the run over a message's beats (spec/30_encoding.md R36, R37,
spec/41_sequences.md R51). -/

namespace Sys2Proof.Machine

theorem Beat.ofWord_commandWord (c : CmdCode) (d : Byte) : Beat.ofWord (commandWord c d) = ⟨false, c, d⟩ := by
  simp [Beat.ofWord]

theorem AsmLine.beats_init : AsmLine.beats .init = [⟨false, 0b01#2, 0x00#8⟩] := rfl

theorem AsmLine.beats_upd (b : Byte) : AsmLine.beats (.upd b) = [⟨false, 0b10#2, b⟩] := by
  rw [AsmLine.beats, updWord_eq, Beat.ofWord_commandWord]

theorem AsmLine.beatsBeside_none (l : AsmLine) : l.beatsBeside none = l.beats := by
  by_cases hl : l = .rst
  · subst hl; rfl
  · exact if_neg hl

/-- A message's beats are INIT's and those of one UPD a byte (R37). -/
theorem messageBeats_eq_listingBeats (buf : List Byte) :
    messageBeats buf = listingBeats (.init :: buf.map .upd) := by
  rw [messageBeats, listingBeats, List.flatMap_cons, List.flatMap_map, List.map_eq_flatMap]
  rfl

theorem messageBeats_events (buf : List Byte) :
    (messageBeats buf).map Beat.event = .preset :: buf.map .absorb := by
  have hinit : (Beat.ofWord 0x100#10).event = .preset := Beat.event_init 0x00#8
  simp [messageBeats, hinit, updWord_eq, Beat.ofWord_commandWord]

/-- From every register value a message's beats leave its CRC (R51). -/
theorem run_messageBeats {s : State} {buf : List Byte} (h : s.beats = messageBeats buf) :
    run s.beats.length s = .next { crc := crcA buf, beats := [] } := by
  have hnone : ∀ b ∈ messageBeats buf, b.event ≠ .refuse := by
    intro b hb
    have hmem := List.mem_map_of_mem (f := Beat.event) hb
    rw [messageBeats_events] at hmem
    intro he
    simp [he] at hmem
  have hrun := run_of_events s.crc (messageBeats buf) [] hnone
  rw [messageBeats_events, List.foldl_cons, foldl_write_absorb, List.append_nil, ← h] at hrun
  exact hrun

/-- Settles O35: CRCA, FRAME and CHECK are a message's beats, which leave its CRC; CHECK's is zero by the residue. -/
theorem pseudoInstructionsExpandAndCompute : Obligations.PseudoInstructionsExpandAndCompute := by
  unfold Obligations.PseudoInstructionsExpandAndCompute
  refine ⟨rfl, AsmLine.beats_init, AsmLine.beats_upd, rfl, AsmLine.beatsBeside_none, fun _ => rfl, ?expand, ?expandCheck,
    ?crca, rfl, ?check⟩
  case expand =>
    intro buf
    exact ⟨messageBeats_eq_listingBeats buf, rfl⟩
  case expandCheck =>
    intro buf c0 c1
    exact messageBeats_eq_listingBeats (buf ++ [c0, c1])
  case crca =>
    intro s buf hs
    exact ⟨run_messageBeats hs, rfl⟩
  case check =>
    intro s buf c0 c1 hs
    exact ⟨_, run_messageBeats hs, crcA_append_pair_eq_zero_iff buf c0 c1⟩

end Sys2Proof.Machine
end

section
/-! SUPPORT. The assembler's text: bytes read back, words are cut where they were joined, and a comment is not read
(spec/30_encoding.md R36, R37; the blanks are log entry 7). -/

namespace Sys2Proof.Machine

/-! ## Bytes -/

theorem readHexDigit_hexDigit (n : BitVec 4) : readHexDigit (hexDigit n) = some n := by
  revert n; decide

theorem hexDigit_mem (n : BitVec 4) : hexDigit n ∈ hexDigits := by
  revert n; decide

theorem readByte_byteText (b : Byte) : readByte (byteText b) = some b := by
  simp only [readByte, byteText, readHexDigit_hexDigit, Option.some.injEq]
  have h := BitVec.extractLsb'_append_extractLsb'_eq_extractLsb' (x := b) (show 4 = 0 + 4 from rfl) (len₂ := 4)
  simpa using h

theorem readBytes_map_byteText (buf : List Byte) : readBytes (buf.map byteText) = some buf := by
  induction buf with
  | nil => rfl
  | cons b buf ih => simp [readBytes, readByte_byteText, ih]

/-! ## Words -/

/-- What the text of a line is cut into: something, with neither a blank nor the comment mark in it. -/
structure PlainWord (t : List Char) : Prop where
  ne_nil : t ≠ []
  no_blank : ' ' ∉ t
  no_comment : ';' ∉ t

theorem plainWord_byteText (b : Byte) : PlainWord (byteText b) := by
  have hdigits : ' ' ∉ hexDigits ∧ ';' ∉ hexDigits := by decide
  have hblank (n : BitVec 4) : ' ' ≠ hexDigit n := fun h => hdigits.1 (h ▸ hexDigit_mem n)
  have hcomment (n : BitVec 4) : ';' ≠ hexDigit n := fun h => hdigits.2 (h ▸ hexDigit_mem n)
  exact ⟨by simp [byteText], by simp [byteText, hblank], by simp [byteText, hcomment]⟩

theorem plainWord_of_mem_mnemonic_bytes {m : List Char} (hm : PlainWord m) (buf : List Byte) :
    ∀ t ∈ m :: buf.map byteText, PlainWord t := by
  simp only [List.forall_mem_cons, List.forall_mem_map]
  exact ⟨hm, fun b _ => plainWord_byteText b⟩

theorem AsmLine.plainWord_of_mem_words (l : AsmLine) : ∀ t ∈ l.words, PlainWord t := by
  cases l with
  | blank => simp [AsmLine.words]
  | nop => exact plainWord_of_mem_mnemonic_bytes ⟨by decide, by decide, by decide⟩ []
  | init => exact plainWord_of_mem_mnemonic_bytes ⟨by decide, by decide, by decide⟩ []
  | upd b => exact plainWord_of_mem_mnemonic_bytes ⟨by decide, by decide, by decide⟩ [b]
  | rst => exact plainWord_of_mem_mnemonic_bytes ⟨by decide, by decide, by decide⟩ []
  | crca buf => exact plainWord_of_mem_mnemonic_bytes ⟨by decide, by decide, by decide⟩ buf
  | frame buf => exact plainWord_of_mem_mnemonic_bytes ⟨by decide, by decide, by decide⟩ buf
  | check buf c0 c1 => exact plainWord_of_mem_mnemonic_bytes ⟨by decide, by decide, by decide⟩ (buf ++ [c0, c1])

/-! ## Cutting a text into words -/

theorem splitWords_blank (cs cur : List Char) (hcur : cur ≠ []) :
    splitWords (' ' :: cs) cur = cur :: splitWords cs [] := by
  simp [splitWords, hcur]

/-- Characters other than a blank join the word being read. -/
theorem splitWords_append_of_no_blank (t cs cur : List Char) (ht : ' ' ∉ t) :
    splitWords (t ++ cs) cur = splitWords cs (cur ++ t) := by
  induction t generalizing cur with
  | nil => simp
  | cons c t ih =>
    have hc : c ≠ ' ' := (List.ne_of_not_mem_cons ht).symm
    have ht : ' ' ∉ t := List.not_mem_of_not_mem_cons ht
    rw [List.cons_append, splitWords, if_neg hc, ih _ ht, List.append_assoc, List.singleton_append]

/-- A blank at the end of a text makes no word. -/
theorem splitWords_append_blank (cs cur : List Char) : splitWords (cs ++ [' ']) cur = splitWords cs cur := by
  induction cs generalizing cur with
  | nil => simp [splitWords]
  | cons c cs ih => simp only [List.cons_append, splitWords, ih]

theorem splitWords_joinWords (ts : List (List Char)) (hts : ∀ t ∈ ts, PlainWord t) :
    splitWords (joinWords ts) [] = ts := by
  induction ts with
  | nil => rfl
  | cons t ts ih =>
    obtain ⟨ht, hts⟩ := List.forall_mem_cons.mp hts
    cases ts with
    | nil =>
      have h := splitWords_append_of_no_blank t [] [] ht.no_blank
      simpa [joinWords, splitWords, ht.ne_nil] using h
    | cons t' ts =>
      rw [joinWords, splitWords_append_of_no_blank _ _ _ ht.no_blank, List.nil_append, splitWords_blank _ _ ht.ne_nil,
        ih hts]

theorem no_comment_joinWords (ts : List (List Char)) (hts : ∀ t ∈ ts, PlainWord t) : ';' ∉ joinWords ts := by
  induction ts with
  | nil => simp [joinWords]
  | cons t ts ih =>
    obtain ⟨ht, hts⟩ := List.forall_mem_cons.mp hts
    cases ts with
    | nil => exact ht.no_comment
    | cons t' ts => simp [joinWords, ht.no_comment, ih hts]

/-! ## Reading a line -/

/-- A text without a comment mark is read whole. -/
theorem readLine_of_no_comment (cs : List Char) (hcs : ';' ∉ cs) : readLine cs = readWords (splitWords cs []) := by
  have hwhole : cs.takeWhile (· != ';') = cs := by
    rw [List.takeWhile_eq_self_iff]
    intro c hc
    simpa using ne_of_mem_of_not_mem hc hcs
  rw [readLine, hwhole]

/-- A comment after a blank is not read. -/
theorem readLine_append_comment (cs comment : List Char) (hcs : ';' ∉ cs) :
    readLine (cs ++ ' ' :: ';' :: comment) = readLine cs := by
  have hcut : (cs ++ ' ' :: ';' :: comment).takeWhile (· != ';') = cs ++ [' '] := by
    rw [List.takeWhile_append_of_pos]
    · simp
    · intro c hc
      simpa using ne_of_mem_of_not_mem hc hcs
  rw [readLine, hcut, splitWords_append_blank, readLine_of_no_comment cs hcs]

theorem readCheck_append (buf : List Byte) (c0 c1 : Byte) (hbuf : buf ≠ []) :
    readCheck (buf ++ [c0, c1]) = some (.check buf c0 c1) := by
  obtain ⟨b, rest, hrev⟩ := List.exists_cons_of_ne_nil (List.reverse_ne_nil_iff.mpr hbuf)
  simp [readCheck, hrev, ← List.reverse_eq_iff.mp hrev]

/-- The words of a line that has a form spell that line. -/
theorem AsmLine.readWords_words (l : AsmLine) (hl : l.wellFormed = true) : readWords l.words = some l := by
  cases l with
  | blank => rfl
  | nop => rfl
  | init => rfl
  | upd b => simp [AsmLine.words, readWords, readBytes, readByte_byteText]
  | rst => rfl
  | crca buf => simp [AsmLine.words, readWords, readBytes_map_byteText]
  | frame buf =>
    have hbuf : buf ≠ [] := by simpa [AsmLine.wellFormed] using hl
    simp [AsmLine.words, readWords, readBytes_map_byteText, hbuf]
  | check buf c0 c1 =>
    have hbuf : buf ≠ [] := by simpa [AsmLine.wellFormed] using hl
    rw [AsmLine.words, readWords, readBytes_map_byteText]
    exact readCheck_append buf c0 c1 hbuf

/-- Settles O34: the comment is cut off, the text is cut into the line's words, and the words spell the line. -/
theorem assemblerTextReadsBack : Obligations.AssemblerTextReadsBack := by
  unfold Obligations.AssemblerTextReadsBack
  intro l comment hl
  have hwords := l.plainWord_of_mem_words
  have hcomment : ';' ∉ l.text := no_comment_joinWords l.words hwords
  have hread : readLine l.text = some l := by
    rw [readLine_of_no_comment _ hcomment, AsmLine.text, splitWords_joinWords _ hwords, l.readWords_words hl]
  exact ⟨hread, by rw [readLine_append_comment _ _ hcomment, hread]⟩

end Sys2Proof.Machine
end

section
/-! SUPPORT. XOR-linearity: what is linear in a bit vector is settled by its single bits, and the update in its byte form
and in its bit-serial form is linear (spec/40_commands.md R43, R46). -/

namespace Sys2Proof

/-- Every bit vector is an XOR of single bits: what holds of zero and of each bit, and is kept by XOR, holds of all. -/
theorem bitVec_xor_induction {w : Nat} {P : BitVec w → Prop} (zero : P 0#w) (bit : ∀ i, i < w → P (1#w <<< i))
    (xor : ∀ x y, P x → P y → P (x ^^^ y)) (x : BitVec w) : P x := by
  have of_bits_below : ∀ n ≤ w, ∀ y : BitVec w, (∀ i, n ≤ i → y.getLsbD i = false) → P y := by
    intro n
    induction n with
    | zero =>
      intro _ y hy
      have hy0 : y = 0#w := BitVec.eq_of_getLsbD_eq fun i _ => by simp [hy i]
      rwa [hy0]
    | succ n ih =>
      intro hn y hy
      cases hbit : y.getLsbD n with
      | false =>
        refine ih (by omega) y fun i hi => ?_
        obtain rfl | hi := hi.eq_or_lt
        · exact hbit
        · exact hy i hi
      | true =>
        have hclear : ∀ i, n ≤ i → (y ^^^ 1#w <<< n).getLsbD i = false := by
          intro i hi
          rw [BitVec.getLsbD_xor, ← BitVec.twoPow_eq, BitVec.getLsbD_twoPow]
          obtain rfl | hi := hi.eq_or_lt
          · simp [hbit, show n < w by omega]
          · simp [hy i hi, hi.ne]
        have hsum := xor _ _ (ih (by omega) _ hclear) (bit n (by omega))
        rwa [BitVec.xor_assoc, BitVec.xor_self, BitVec.xor_zero] at hsum
  exact of_bits_below w le_rfl x fun i hi => BitVec.getLsbD_of_ge x i hi

end Sys2Proof

namespace Sys2Proof.Machine

/-- Property 2 of R46, of any function of a register value and a byte. -/
def XorLinear (g : Crc → Byte → Crc) : Prop :=
  ∀ (c c' : Crc) (b b' : Byte), g (c ^^^ c') (b ^^^ b') = g c b ^^^ g c' b'

theorem XorLinear.zero {g : Crc → Byte → Crc} (hg : XorLinear g) : g 0#16 0#8 = 0#16 := by
  have h := hg 0#16 0#16 0#8 0#8
  rwa [BitVec.xor_self, BitVec.xor_self, BitVec.xor_self] at h

/-- The register's part and the byte's part do not interact. -/
theorem XorLinear.split {g : Crc → Byte → Crc} (hg : XorLinear g) (c : Crc) (b : Byte) :
    g c b = g c 0#8 ^^^ g 0#16 b := by
  rw [← hg, BitVec.xor_zero, BitVec.zero_xor]

/-- Two linear functions that agree on the twenty-four single bits are one function (property 5 of R46). -/
theorem XorLinear.eq_of_basis {g g' : Crc → Byte → Crc} (hg : XorLinear g) (hg' : XorLinear g')
    (hdata : ∀ i, i < 8 → g 0#16 (1#8 <<< i) = g' 0#16 (1#8 <<< i))
    (hreg : ∀ i, i < 16 → g (1#16 <<< i) 0#8 = g' (1#16 <<< i) 0#8) (c : Crc) (b : Byte) : g c b = g' c b := by
  have hzero : g 0#16 0#8 = g' 0#16 0#8 := by rw [hg.zero, hg'.zero]
  have hc : g c 0#8 = g' c 0#8 := by
    induction c using bitVec_xor_induction with
    | zero => exact hzero
    | bit i hi => exact hreg i hi
    | xor x y hx hy => rw [← BitVec.xor_zero (x := 0#8), hg, hg', hx, hy]
  have hb : g 0#16 b = g' 0#16 b := by
    induction b using bitVec_xor_induction with
    | zero => exact hzero
    | bit i hi => exact hdata i hi
    | xor x y hx hy => rw [← BitVec.xor_zero (x := 0#16), hg, hg', hx, hy]
  rw [hg.split, hg'.split, hc, hb]

theorem crcAStep_xorLinear : XorLinear crcAStep := by
  intro c c' b b'
  have he : (b ^^^ b') ^^^ lowByte (c ^^^ c') = (b ^^^ lowByte c) ^^^ (b' ^^^ lowByte c') := by
    rw [lowByte_xor]
    ac_rfl
  rw [crcAStep, he, foldNibble_xor, feedback_xor, highByte_xor, BitVec.setWidth_xor, crcAStep, crcAStep]
  ac_rfl

/-- One step of R43 as the shift and the polynomial fed back or not. -/
theorem crcAShift_eq_xor (r : Crc) (bit : Bool) :
    crcAShift r bit = (r >>> 1) ^^^ (if r.getLsbD 0 ^^ bit then Config.polyReflected else 0#16) := by
  rw [crcAShift]
  cases r.getLsbD 0 ^^ bit with
  | false => exact BitVec.xor_zero.symm
  | true => rfl

/-- Whether the polynomial is fed back is itself an XOR, so one step is linear. -/
theorem crcAShift_xor (r r' : Crc) (bit bit' : Bool) :
    crcAShift (r ^^^ r') (bit ^^ bit') = crcAShift r bit ^^^ crcAShift r' bit' := by
  have hfed : ((r ^^^ r').getLsbD 0 ^^ (bit ^^ bit')) = ((r.getLsbD 0 ^^ bit) ^^ (r'.getLsbD 0 ^^ bit')) := by
    rw [BitVec.getLsbD_xor, Bool.xor_assoc, Bool.xor_assoc, Bool.xor_left_comm (r'.getLsbD 0)]
  have hpoly : ∀ x y : Bool, (if x ^^ y then Config.polyReflected else 0#16) =
      (if x then Config.polyReflected else 0#16) ^^^ (if y then Config.polyReflected else 0#16) := by
    decide
  rw [crcAShift_eq_xor, hfed, hpoly, BitVec.ushiftRight_xor_distrib, crcAShift_eq_xor, crcAShift_eq_xor]
  ac_rfl

theorem foldl_crcAShift_xor (is : List Nat) (c c' : Crc) (b b' : Byte) :
    is.foldl (fun r i => crcAShift r ((b ^^^ b').getLsbD i)) (c ^^^ c') =
      is.foldl (fun r i => crcAShift r (b.getLsbD i)) c ^^^ is.foldl (fun r i => crcAShift r (b'.getLsbD i)) c' := by
  induction is generalizing c c' with
  | nil => rfl
  | cons i is ih => rw [List.foldl_cons, BitVec.getLsbD_xor, crcAShift_xor, ih]; rfl

theorem crcAStepBits_xorLinear : XorLinear crcAStepBits :=
  foldl_crcAShift_xor (List.range 8)

theorem lowByte_one_shiftLeft {i : Nat} (hi : 8 ≤ i) : lowByte (1#16 <<< i) = 0#8 := by
  refine BitVec.eq_of_getLsbD_eq fun j hj => ?_
  rw [lowByte_getLsbD _ hj, ← BitVec.twoPow_eq, BitVec.getLsbD_twoPow]
  simp [show i ≠ j by omega]

/-- A bit of the register's upper byte only moves down (R46). -/
theorem crcAStep_upper_bit {i : Nat} (hlo : 8 ≤ i) (hhi : i < 16) : crcAStep (1#16 <<< i) 0#8 = 1#16 <<< (i - 8) := by
  rw [← lowByte_one_shiftLeft hlo, crcAStep_lowByte]
  refine BitVec.eq_of_getLsbD_eq fun j hj => ?_
  rw [BitVec.getLsbD_ushiftRight, ← BitVec.twoPow_eq, ← BitVec.twoPow_eq, BitVec.getLsbD_twoPow, BitVec.getLsbD_twoPow]
  simp [hhi, show i - 8 < 16 by omega, show i = 8 + j ↔ i - 8 = j by omega]

/-- Settles O25: the values are computed, and a linear function is settled by its values at the single bits. -/
theorem basisValuesDefineTheUpdate : Obligations.BasisValuesDefineTheUpdate := by
  unfold Obligations.BasisValuesDefineTheUpdate
  refine ⟨by decide, by decide, fun _ => crcAStep_upper_bit, ?defines⟩
  case defines =>
    intro g hlinear hdata hreg
    exact XorLinear.eq_of_basis hlinear crcAStep_xorLinear hdata hreg

/-- Settles O19: both forms are linear, and they agree on the twenty-four single bits. -/
theorem byteFormEqualsBitSerialForm : Obligations.ByteFormEqualsBitSerialForm := by
  unfold Obligations.ByteFormEqualsBitSerialForm
  exact crcAStep_xorLinear.eq_of_basis crcAStepBits_xorLinear (by decide) (by decide)

/-- Two messages of equal length absorbed from two register values, and their XOR from the XOR of the values. -/
theorem absorbAll_xor (c c' : Crc) (m m' : List Byte) (hlen : m.length = m'.length) :
    absorbAll c m ^^^ absorbAll c' m' = absorbAll (c ^^^ c') (List.zipWith (· ^^^ ·) m m') := by
  induction m generalizing c c' m' with
  | nil =>
    obtain rfl := List.length_eq_zero_iff.mp hlen.symm
    rfl
  | cons b m ih =>
    cases m' with
    | nil => cases hlen
    | cons b' m' =>
      rw [absorbAll_cons, absorbAll_cons, ih _ _ _ (Nat.succ.inj hlen), ← crcAStep_xorLinear]
      rfl

/-- The preset cancels in the XOR of two messages' CRCs (R46). -/
theorem crcA_xor (m m' : List Byte) (hlen : m.length = m'.length) :
    crcA m ^^^ crcA m' = absorbAll 0#16 (List.zipWith (· ^^^ ·) m m') := by
  rw [crcA, crcA, absorbAll_xor _ _ _ _ hlen, BitVec.xor_self]

/-- Settles O22, by linearity of the update and induction over the two messages. -/
theorem updateIsLinearOverXor : Obligations.UpdateIsLinearOverXor := by
  unfold Obligations.UpdateIsLinearOverXor
  exact ⟨crcAStep_xorLinear, crcAStep_xorLinear.zero, crcA_xor⟩

end Sys2Proof.Machine
end

section
/-! SUPPORT. The update as a bijection: by linearity it is enough that only zero is taken to zero, which the residue lemmas
say (spec/40_commands.md R46, spec/41_sequences.md R54). -/

namespace Sys2Proof.Machine

/-- What differs in the register before a byte still differs after it. -/
theorem crcAStep_injective (b : Byte) : Function.Injective (fun c : Crc => crcAStep c b) := by
  intro c c' h
  have hzero : crcAStep (c ^^^ c') 0#8 = 0#16 := by
    rw [← BitVec.xor_self (x := b), crcAStep_xorLinear]
    exact BitVec.xor_eq_zero_iff.mpr h
  obtain ⟨hlow, hshift⟩ := (crcAStep_eq_zero_iff _ _).mp hzero
  have hhigh : highByte (c ^^^ c') = 0#8 := by rw [← lowByte_ushiftRight_8, hshift, lowByte_zero]
  rw [← BitVec.xor_eq_zero_iff, ← highByte_append_lowByte (c ^^^ c'), hhigh, ← hlow]
  rfl

theorem crcAStep_bijective (b : Byte) : Function.Bijective (fun c : Crc => crcAStep c b) :=
  (Fintype.bijective_iff_injective_and_card _).mpr ⟨crcAStep_injective b, rfl⟩

theorem absorbAll_bijective (m : List Byte) : Function.Bijective (fun c : Crc => absorbAll c m) := by
  induction m with
  | nil => exact Function.bijective_id
  | cons b m ih => exact ih.comp (crcAStep_bijective b)

/-- Settles O23: one byte by linearity and counting, a sequence of bytes by composition. -/
theorem updateIsBijectiveOnTheRegister : Obligations.UpdateIsBijectiveOnTheRegister := by
  unfold Obligations.UpdateIsBijectiveOnTheRegister
  exact ⟨crcAStep_bijective, absorbAll_bijective⟩

/-- Two messages of two bytes with one CRC differ by a pair that keeps the zero register zero: the pair of zeros. -/
theorem crcA_pair_injective : Function.Injective (fun p : Byte × Byte => crcA [p.1, p.2]) := by
  rintro ⟨x, y⟩ ⟨x', y'⟩ h
  have hzero : absorbAll 0#16 [x ^^^ x', y ^^^ y'] = 0#16 := by
    have hsame : crcA [x, y] = crcA [x', y'] := h
    have hxor := crcA_xor [x, y] [x', y'] rfl
    rw [hsame, BitVec.xor_self] at hxor
    exact hxor.symm
  obtain ⟨hx, hy⟩ := (absorbAll_pair_eq_zero_iff _ _ _).mp hzero
  exact Prod.ext (BitVec.xor_eq_zero_iff.mp hx) (BitVec.xor_eq_zero_iff.mp hy)

theorem card_bytePair_eq_card_crc : Fintype.card (Byte × Byte) = Fintype.card Crc := by
  rw [Fintype.card_prod, ← FinEnum.card_eq_fintypeCard, ← FinEnum.card_eq_fintypeCard]
  rfl

theorem crcA_pair_bijective : Function.Bijective (fun p : Byte × Byte => crcA [p.1, p.2]) :=
  (Fintype.bijective_iff_injective_and_card _).mpr ⟨crcA_pair_injective, card_bytePair_eq_card_crc⟩

/-- Settles O24: the two-byte messages by linearity and counting; the run presents INIT and the message. -/
theorem everyRegisterValueIsReached : Obligations.EveryRegisterValueIsReached := by
  unfold Obligations.EveryRegisterValueIsReached
  refine ⟨crcA_pair_bijective, by decide, by decide, by decide, ?reached⟩
  case reached =>
    intro v
    obtain ⟨⟨x, y⟩, rfl⟩ := crcA_pair_bijective.surjective v
    exact ⟨messageBeats [x, y], run_messageBeats (s := { State.reset with beats := messageBeats [x, y] }) rfl⟩

end Sys2Proof.Machine
end

section
/-! SUPPORT. The other forms of the update: bit by bit, from the table, and as eight shifts (spec/40_commands.md R43, R44;
spec/95_test_vectors.md 4.4). -/

namespace Sys2Proof.Config

theorem polyReflected_getLsbD_iff (i : Nat) : polyReflected.getLsbD i = true ↔ i = 15 ∨ i = 10 ∨ i = 3 := by
  by_cases hi : i < 16
  · rw [polyReflected_getLsbD hi, generatorPoly_getLsbD_iff]
    omega
  · rw [BitVec.getLsbD_of_ge _ _ (by omega)]
    simp only [Bool.false_eq_true, false_iff]
    omega

end Sys2Proof.Config

namespace Sys2Proof.Machine

theorem foldNibble_getLsbD (e : Byte) {i : Nat} (hi : i < 8) :
    (foldNibble e).getLsbD i = if i < 4 then e.getLsbD i else (e.getLsbD i ^^ e.getLsbD (i - 4)) := by
  by_cases h : i < 4
  · simp [foldNibble, h]
  · have hi' : i - 4 < 8 := by omega
    simp [foldNibble, h, hi, hi', BitVec.getLsbD_eq_getElem]

/-- The three terms of R42 that the working byte feeds back, bit by bit. -/
theorem feedback_getLsbD (f : Byte) {i : Nat} (hi : i < 16) :
    (feedback f).getLsbD i =
      ((!decide (i < 8) && f.getLsbD (i - 8)) ^^ (!decide (i < 3) && f.getLsbD (i - 3)) ^^ f.getLsbD (4 + i)) := by
  have hwidened : ∀ k, (f.setWidth 16).getLsbD k = f.getLsbD k := by
    intro k
    rw [BitVec.getLsbD_setWidth, Bool.and_eq_right_iff_imp, decide_eq_true_iff]
    intro hk
    have := BitVec.lt_of_getLsbD hk
    omega
  simp only [feedback, BitVec.getLsbD_xor, BitVec.getLsbD_shiftLeft, BitVec.getLsbD_ushiftRight, hwidened, hi,
    decide_true, Bool.true_and]

/-- The upper byte shifted down, and the feedback, bit by bit. -/
theorem crcAStep_getLsbD (c : Crc) (b : Byte) (i : Nat) :
    (crcAStep c b).getLsbD i =
      (c.getLsbD (8 + i) ^^ (feedback (foldNibble (b ^^^ lowByte c))).getLsbD i) := by
  rw [crcAStep_eq_shift, BitVec.getLsbD_xor, BitVec.getLsbD_ushiftRight]

/-- Settles O20: the bits of the update by those of the feedback, and the working byte's bits are the table's `f`. -/
theorem nextRegisterBitByBit : Obligations.NextRegisterBitByBit := by
  unfold Obligations.NextRegisterBitByBit
  intro c b e f n
  have hf : ∀ i, (foldNibble (b ^^^ lowByte c)).getLsbD i = (decide (i < 8) && f i) := by
    intro i
    by_cases hi : i < 8
    · have he : ∀ j, j < 8 → (b ^^^ lowByte c).getLsbD j = e j := fun j hj => by
        rw [BitVec.getLsbD_xor, lowByte_getLsbD c hj]
      rw [foldNibble_getLsbD _ hi, he i hi, he (i - 4) (by omega)]
      simp [hi, f]
    · rw [BitVec.getLsbD_of_ge _ _ (by omega), decide_eq_false hi, Bool.false_and]
  have hn : ∀ i, n i = (c.getLsbD (8 + i) ^^ (feedback (foldNibble (b ^^^ lowByte c))).getLsbD i) :=
    crcAStep_getLsbD c b
  clear_value n f
  simp only [hn, feedback_getLsbD, hf, Nat.reduceLT]
  simp

/-- The transcribed table holds what each working byte feeds back. -/
theorem crcATable_getD : ∀ x : Byte, crcATable.getD x.toNat 0 = feedback (foldNibble x) := by
  decide

/-- Sixteen rows of sixteen entries. -/
theorem crcATable_length : crcATable.length = 256 := by
  simp only [crcATable, List.length_append, List.length_cons, List.length_nil]

theorem crcAStepTable_eq (c : Crc) (b : Byte) : crcAStepTable c b = crcAStep c b := by
  rw [crcAStepTable, crcATable_getD, crcAStep_eq_shift]

/-- Settles O21: the table holds the feedback term of the byte form. -/
theorem tableDrivenFormEqualsByteForm : Obligations.TableDrivenFormEqualsByteForm := by
  unfold Obligations.TableDrivenFormEqualsByteForm
  exact ⟨crcATable_length, crcAStepTable_eq⟩

/-- Settles O18: the shifts are the definition's; the constant's bits are the reversed polynomial's. -/
theorem bitSerialFormShiftsLeastSignificantBitFirst :
    Obligations.BitSerialFormShiftsLeastSignificantBitFirst := by
  unfold Obligations.BitSerialFormShiftsLeastSignificantBitFirst
  exact ⟨fun _ _ => rfl, fun _ _ => rfl, Config.polyReflected_getLsbD_iff, by decide⟩

end Sys2Proof.Machine
end

section
/-! SUPPORT. The meanings of the commands: the words of NOP and INIT, the beats that hold, and the formula of UPD
(spec/40_commands.md R40, R41, R42). -/

namespace Sys2Proof

theorem toNat_cmdField (w : CmdWord) : (cmdField w).toNat = w.toNat / 256 := by
  have hw := w.isLt
  rw [cmdField, BitVec.extractLsb'_toNat, Nat.shiftRight_eq_div_pow]
  omega

theorem decode_eq_nop_iff_cmdField (w : CmdWord) : decode w = .nop ↔ cmdField w = 0b00#2 := by
  obtain ⟨c, d, rfl⟩ := exists_commandWord w
  rw [cmdField_commandWord]
  constructor
  · intro h
    obtain ⟨hnop, -⟩ := Laws.MnemonicRow.code_of_decode c d _ h
    exact hnop rfl
  · rintro rfl
    exact decode_nop d

theorem decode_eq_init_iff_cmdField (w : CmdWord) : decode w = .init ↔ cmdField w = 0b01#2 := by
  obtain ⟨c, d, rfl⟩ := exists_commandWord w
  rw [cmdField_commandWord]
  constructor
  · intro h
    obtain ⟨-, hinit, -⟩ := Laws.MnemonicRow.code_of_decode c d _ h
    exact hinit rfl
  · rintro rfl
    exact decode_init d

theorem decode_eq_nop_iff (w : CmdWord) : decode w = .nop ↔ w.toNat ≤ 0x0FF := by
  rw [decode_eq_nop_iff_cmdField, ← BitVec.toNat_inj, toNat_cmdField, BitVec.toNat_ofNat]
  omega

theorem decode_eq_init_iff (w : CmdWord) : decode w = .init ↔ 0x100 ≤ w.toNat ∧ w.toNat ≤ 0x1FF := by
  rw [decode_eq_init_iff_cmdField, ← BitVec.toNat_inj, toNat_cmdField, BitVec.toNat_ofNat]
  omega

end Sys2Proof

namespace Sys2Proof.Machine

theorem exec_nop (s : State) : exec .nop s = .next s := rfl

theorem exec_init (s : State) : exec .init s = .next s.presetCrc := rfl

theorem exec_upd (d : Byte) (s : State) : exec (.upd d) s = .next (s.absorb d) := rfl

theorem step_of_nop {s : State} {d : Byte} {bs : List Beat} (h : s.beats = ⟨false, 0b00#2, d⟩ :: bs) :
    step s = .next { s with beats := bs } := by
  rw [step_of_command h rfl, Beat.word, decode_nop, exec_nop]

/-- Any number of NOP beats leave the register, and the outputs at every beat (R40). -/
theorem run_trace_nops {s : State} {dins : List Byte} {rest : List Beat}
    (h : s.beats = dins.map (fun d => ⟨false, 0b00#2, d⟩) ++ rest) :
    run dins.length s = .next { s with beats := rest } ∧
      trace dins.length s = List.replicate (dins.length + 1) (outputs s) := by
  induction dins generalizing s with
  | nil =>
    have hrest : s.beats = rest := h
    subst hrest
    exact ⟨rfl, rfl⟩
  | cons d dins ih =>
    rw [List.map_cons, List.cons_append] at h
    have hstep := step_of_nop h
    obtain ⟨hrun, htrace⟩ := ih (s := { s with beats := dins.map (fun d => ⟨false, 0b00#2, d⟩) ++ rest }) rfl
    constructor
    · rw [List.length_cons, run_succ_of_next _ hstep, hrun]
    · rw [List.length_cons, trace_succ_of_next _ hstep, htrace]
      rfl

theorem activeEvents_nop (bs : List Beat) (d : Byte) (bs' : List Beat) :
    activeEvents (bs ++ ⟨false, 0b00#2, d⟩ :: bs') = activeEvents (bs ++ bs') := by
  simp [activeEvents]

/-- Settles O11: NOP writes back what the register holds, and so does every NOP beat of a run. -/
theorem nopHoldsTheRegister : Obligations.NopHoldsTheRegister := by
  unfold Obligations.NopHoldsTheRegister
  exact ⟨exec_nop, decode_eq_nop_iff, rfl, fun _ _ _ => run_trace_nops, activeEvents_nop, exec_nop _, by decide⟩

/-- After INIT or reset the outputs show the two bytes of the preset (R41, R70). -/
theorem outputs_presetCrc (s : State) : outputs s.presetCrc = (0x63#8, 0x63#8) :=
  calc outputs s.presetCrc
      = outputs State.reset := (outputs_eq_iff _ _).mpr rfl
    _ = (0x63#8, 0x63#8) := by decide

/-- Settles O12: INIT's state is the given one with the preset in the register. -/
theorem initLoadsThePreset : Obligations.InitLoadsThePreset := by
  unfold Obligations.InitLoadsThePreset
  refine ⟨exec_init, decode_eq_init_iff, rfl, ?twice, ?forgets, exec_init _, exec_init _⟩
  case twice =>
    intro s t h
    rw [exec_init] at h
    cases h
    exact ⟨exec_init _, outputs_presetCrc s⟩
  case forgets =>
    intro s s' hbeats
    rw [exec_init, exec_init, State.eq_of_fields (s := s.presetCrc) (t := s'.presetCrc) rfl hbeats]

/-- `t3` of R42 in its two spellings: `zext_16(f[7:4])` and `zext_16(f) >> 4`. -/
theorem upperNibble_setWidth (f : Byte) : (f.extractLsb' 4 4).setWidth 16 = f.setWidth 16 >>> 4 := by
  have hf := f.isLt
  apply BitVec.eq_of_toNat_eq
  simp only [BitVec.toNat_setWidth, BitVec.extractLsb'_toNat, BitVec.toNat_ushiftRight, Nat.shiftRight_eq_div_pow]
  omega

/-- The update sees of the byte only its XOR with the register's lower byte (R42). -/
theorem crcAStep_eq_of_workingByte (c : Crc) (b : Byte) :
    crcAStep c b = crcAStep (highByte c ++ (b ^^^ lowByte c) : BitVec 16) 0#8 := by
  rw [crcAStep, crcAStep, highByte_append, lowByte_append, BitVec.zero_xor]

theorem crcAStep_eq_formula (c : Crc) (b : Byte) :
    let f := foldNibble (b ^^^ lowByte c)
    crcAStep c b = (highByte c).setWidth 16 ^^^ f.setWidth 16 <<< 8 ^^^ f.setWidth 16 <<< 3 ^^^
      (f.extractLsb' 4 4).setWidth 16 := by
  intro f
  rw [upperNibble_setWidth, crcAStep, feedback, ← BitVec.xor_assoc, ← BitVec.xor_assoc]

/-- Settles O13: the update by its formula; with the register's own lower byte the working byte is zero. -/
theorem updAbsorbsOneByte : Obligations.UpdAbsorbsOneByte := by
  unfold Obligations.UpdAbsorbsOneByte
  refine ⟨?formula, fun s b => exec_upd b s, ?words, crcAStep_eq_of_workingByte, crcAStep_lowByte, ?twice, by decide⟩
  case formula =>
    intro s b e f t0 t1 t2 t3
    rw [exec_upd, State.absorb, crcAStep_eq_formula]
    rfl
  case words =>
    intro w b
    rw [decode_eq_upd_iff, updWord_eq]
  case twice =>
    exact ⟨0x6363#16, 0x12#8, by decide⟩

end Sys2Proof.Machine
end

section
/-! SUPPORT. Whole messages: beats run by their active events, the trace of a run of events, and the frame
(spec/41_sequences.md R50, R51, R53, R54, R56, spec/70_reset_and_hazards.md R71, R74). -/

namespace Sys2Proof.Machine

/-! ## The CRC of a message and its frame -/

/-- Settles O26: the fold takes the last byte last; the rest is how `CrcA` and `CrcABytes` are defined. -/
theorem messageCrcIsALeftFold : Obligations.MessageCrcIsALeftFold := by
  unfold Obligations.MessageCrcIsALeftFold
  exact ⟨rfl, crcA_concat, fun _ => rfl, fun _ => rfl⟩

/-- Settles O32: the frame by its definition, and the example by evaluation. -/
theorem frameAppendsTheLowByteFirst : Obligations.FrameAppendsTheLowByteFirst := by
  unfold Obligations.FrameAppendsTheLowByteFirst
  refine ⟨fun _ => rfl, ?length, by decide⟩
  case length =>
    intro buf
    rw [frame, List.length_append]
    rfl

/-- Absorbing a whole frame leaves zero (R54). -/
theorem crcA_frame (buf : List Byte) : crcA (frame buf) = 0#16 :=
  (crcA_append_pair_eq_zero_iff buf _ _).mpr rfl

/-- Settles O33: the only pair that leads to zero is the register's own two bytes, and the frame appends that pair. -/
theorem residueIsZeroForTheRightPairOnly : Obligations.ResidueIsZeroForTheRightPairOnly := by
  unfold Obligations.ResidueIsZeroForTheRightPairOnly
  exact ⟨crcA_frame, absorbAll_pair_eq_zero_iff, crcA_append_pair_eq_zero_iff⟩

/-! ## Beats that present a message -/

theorem mem_activeEvents_iff (e : BeatEvent) (bs : List Beat) :
    e ∈ activeEvents bs ↔ (∃ b ∈ bs, b.event = e) ∧ e ≠ .hold := by
  simp [activeEvents]

theorem presentsMessage_iff (buf : List Byte) (bs : List Beat) :
    presentsMessage buf bs = true ↔ activeEvents bs = .preset :: buf.map .absorb := beq_iff_eq

theorem presentsBytes_iff (buf : List Byte) (bs : List Beat) :
    presentsBytes buf bs = true ↔ activeEvents bs = buf.map .absorb := beq_iff_eq

theorem events_ne_refuse_of_activeEvents {bs : List Beat} (h : .refuse ∉ activeEvents bs) :
    ∀ b ∈ bs, b.event ≠ .refuse := fun b hb he => h ((mem_activeEvents_iff _ bs).mpr ⟨⟨b, hb, he⟩, nofun⟩)

/-- No beat of a message is refused. -/
theorem refuse_notMem_of_presentsMessage {buf : List Byte} {bs : List Beat} (h : presentsMessage buf bs = true) :
    .refuse ∉ activeEvents bs := by
  simp [(presentsMessage_iff buf bs).mp h]

/-- Beats with no refused one among the active run to their end, each active event writing in turn: NOPs add steps and
nothing else (R40). -/
theorem run_of_activeEvents {s : State} {bs rest : List Beat} (hs : s.beats = bs ++ rest)
    (hactive : .refuse ∉ activeEvents bs) :
    run bs.length s = .next { crc := (activeEvents bs).foldl BeatEvent.write s.crc, beats := rest } := by
  have hrun := run_of_events s.crc bs rest (events_ne_refuse_of_activeEvents hactive)
  rwa [← hs, foldl_write_active] at hrun

/-- The UPDs of a message, NOPs anywhere, go on from the register as it stands (R72). -/
theorem run_of_presentsBytes {s : State} {buf : List Byte} {bs rest : List Beat} (hs : s.beats = bs ++ rest)
    (hbuf : presentsBytes buf bs = true) : run bs.length s = .next { crc := absorbAll s.crc buf, beats := rest } := by
  have hactive := (presentsBytes_iff buf bs).mp hbuf
  rw [run_of_activeEvents hs (by simp [hactive]), hactive, foldl_write_absorb]

/-- With INIT or reset before them they start from the preset, whatever the register held (R71). -/
theorem run_of_presentsMessage {s : State} {buf : List Byte} {bs rest : List Beat} (hs : s.beats = bs ++ rest)
    (hbuf : presentsMessage buf bs = true) : run bs.length s = .next { crc := crcA buf, beats := rest } := by
  rw [run_of_activeEvents hs (refuse_notMem_of_presentsMessage hbuf), (presentsMessage_iff buf bs).mp hbuf,
    List.foldl_cons, foldl_write_absorb]
  rfl

/-- Beats without NOPs present a message when their events are its. -/
theorem presentsMessage_of_events {buf : List Byte} {bs : List Beat}
    (h : bs.map Beat.event = .preset :: buf.map .absorb) : presentsMessage buf bs = true := by
  rw [presentsMessage_iff, activeEvents, h, List.filter_eq_self]
  simp

theorem presentsMessage_messageBeats (buf : List Byte) : presentsMessage buf (messageBeats buf) = true :=
  presentsMessage_of_events (messageBeats_events buf)

theorem length_messageBeats (buf : List Byte) : (messageBeats buf).length = buf.length + 1 := by
  simp [messageBeats]

/-- A reset beat in INIT's place is the same event (R76). -/
theorem resetBeat_messageBeats_events (buf : List Byte) (c : CmdCode) (d : Byte) :
    (⟨true, c, d⟩ :: (messageBeats buf).tail : List Beat).map Beat.event = .preset :: buf.map .absorb := by
  rw [List.map_cons, List.map_tail, messageBeats_events, Beat.event_reset, List.tail_cons]

/-- Settles O27: the run of the active events, from the preset that INIT or reset writes or that is there already. -/
theorem beatsOfAMessageComputeItsCrc : Obligations.BeatsOfAMessageComputeItsCrc := by
  unfold Obligations.BeatsOfAMessageComputeItsCrc
  refine ⟨?run, ?canonical, ?reset⟩
  case run =>
    rintro s buf bs rest hs (hmessage | ⟨hpreset, hbytes⟩)
    · exact ⟨run_of_presentsMessage hs hmessage, rfl⟩
    · have hrun := run_of_presentsBytes hs hbytes
      rw [hpreset] at hrun
      exact ⟨hrun, rfl⟩
  case canonical =>
    intro buf
    exact ⟨presentsMessage_messageBeats buf, length_messageBeats buf⟩
  case reset =>
    intro buf c d
    exact presentsMessage_of_events (resetBeat_messageBeats_events buf c d)

/-! ## What the outputs show while a message is absorbed -/

/-- The trace over beats none of which is refused: after `k` beats the outputs show what the first `k` events wrote. -/
theorem trace_of_events (c : Crc) (bs rest : List Beat) (h : ∀ b ∈ bs, b.event ≠ .refuse) :
    trace bs.length { crc := c, beats := bs ++ rest } = (List.range (bs.length + 1)).map (fun k =>
      outputs { crc := ((bs.map Beat.event).take k).foldl BeatEvent.write c, beats := bs.drop k ++ rest }) := by
  induction bs generalizing c with
  | nil => rfl
  | cons b bs ih =>
    obtain ⟨hb, hbs⟩ := List.forall_mem_cons.mp h
    rw [List.length_cons, List.cons_append, trace_succ_of_next _ (step_of_event c b _ hb), ih _ hbs,
      List.range_succ_eq_map (n := bs.length + 1), List.map_cons, List.map_map]
    rfl

/-- The first `k + 1` events of a message leave the CRC of its first `k` bytes (R56). -/
theorem foldl_write_take_messageBeats (c : Crc) (buf : List Byte) (k : Nat) :
    (((messageBeats buf).map Beat.event).take (k + 1)).foldl BeatEvent.write c = crcA (buf.take k) := by
  rw [messageBeats_events, List.take_succ_cons, List.foldl_cons, ← List.map_take, foldl_write_absorb]
  rfl

/-- Settles O28: the trace of INIT's and the UPDs' events, its first entry apart. -/
theorem outputsShowTheCrcOfEveryInitialSegment : Obligations.OutputsShowTheCrcOfEveryInitialSegment := by
  unfold Obligations.OutputsShowTheCrcOfEveryInitialSegment
  intro s buf rest hs
  have hnone := events_ne_refuse_of_activeEvents (refuse_notMem_of_presentsMessage (presentsMessage_messageBeats buf))
  have htrace := trace_of_events s.crc (messageBeats buf) rest hnone
  rw [← hs, length_messageBeats, List.range_succ_eq_map, List.map_cons, List.map_map] at htrace
  rw [htrace]
  congr 1
  apply List.map_congr_left
  intro k _
  rw [Function.comp_apply, Nat.succ_eq_add_one, foldl_write_take_messageBeats]
  rfl

end Sys2Proof.Machine
end

section
/-! SUPPORT. No step faults and reset outranks the command (spec/60_exceptions.md R60, R62, R67). -/

namespace Sys2Proof.Machine

/-- R67: the model has no fault outcome, and the reserved word is the only reason to refuse. -/
theorem step_next_or_refused (s : State) : (∃ t, step s = .next t) ∨ step s = .refused .reservedCommand := by
  cases h : step s with
  | next t => exact .inl ⟨t, rfl⟩
  | fault f => cases f
  | refused r =>
    obtain ⟨rfl, -⟩ := (step_eq_refused_iff s r).mp h
    exact .inr rfl

/-- R60: no command but the reserved one can fail, and a meaning takes no further beat. -/
theorem exec_next_keeps_beats {i : Instr} (hi : i ≠ .reserved) (s : State) :
    ∃ t, exec i s = .next t ∧ t.beats = s.beats := by
  cases i with
  | nop => exact ⟨s, exec_nop s, rfl⟩
  | init => exact ⟨s.presetCrc, exec_init s, s.presetCrc_beats⟩
  | upd d => exact ⟨s.absorb d, exec_upd d s, s.absorb_beats d⟩
  | reserved => exact absurd rfl hi

/-- Settles O15: by the outcomes a step can have, and by the commands that have a meaning. -/
theorem noCommandFaults : Obligations.NoCommandFaults := by
  unfold Obligations.NoCommandFaults
  exact ⟨step_next_or_refused, fun _ s hi => exec_next_keeps_beats hi s⟩

/-- R62: on a reset beat the command word is not decoded, whatever it is. -/
theorem step_of_reset {s : State} {c : CmdCode} {d : Byte} {bs : List Beat} (h : s.beats = ⟨true, c, d⟩ :: bs) :
    step s = .next { crc := Config.crcAPreset, beats := bs } :=
  step_of_preset h (Beat.event_reset c d)

/-- Settles O7: the step on a reset beat names neither the command word nor the old register. -/
theorem resetOverridesEveryCommand : Obligations.ResetOverridesEveryCommand := by
  unfold Obligations.ResetOverridesEveryCommand
  constructor
  · intro s c d bs hs
    exact step_of_reset hs
  · intro c c' d d' v v' bs
    rw [step_of_reset rfl, step_of_reset rfl]

end Sys2Proof.Machine
end

section
/-! SUPPORT. Safe runs: no beat of a safe state is refused, and a run that meets a refused beat ends there
(spec/70_reset_and_hazards.md R78, R79). -/

namespace Sys2Proof.Machine

/-- R79's assumption on a list of beats, read by their events. -/
theorem all_accepted_iff (bs : List Beat) : bs.all Beat.accepted = true ↔ ∀ b ∈ bs, b.event ≠ .refuse := by
  simp only [List.all_eq_true, Beat.accepted_iff]

/-- The host's assumption speaks of the beats to come, and a step only takes one of them. -/
theorem safe_step {s t : State} (hs : s.safe = true) (hst : step s = .next t) : t.safe = true := by
  have hbeats : ∀ b ∈ s.beats, b.event ≠ .refuse := (all_accepted_iff s.beats).mp hs
  refine (all_accepted_iff t.beats).mpr fun b hb => hbeats b ?_
  rw [step_next_beats hst] at hb
  exact List.mem_of_mem_tail hb

/-- Progress: a safe state's beats all run. -/
theorem run_of_safe {s : State} (hs : s.safe = true) :
    run s.beats.length s = .next { crc := (s.beats.map Beat.event).foldl BeatEvent.write s.crc, beats := [] } := by
  have hrun := run_of_events s.crc s.beats [] ((all_accepted_iff s.beats).mp hs)
  rwa [List.append_nil] at hrun

/-- R78: refused from the first refused beat on, however many steps are asked for. -/
theorem run_of_refused_beat {s : State} {bs rest : List Beat} {b : Beat} (n : Nat) (hs : s.beats = bs ++ b :: rest)
    (hbs : ∀ b' ∈ bs, b'.event ≠ .refuse) (hb : b.event = .refuse) :
    run (bs.length + 1 + n) s = .refused .reservedCommand := by
  have hbefore := run_of_events s.crc bs (b :: rest) hbs
  rw [← hs] at hbefore
  rw [Nat.add_assoc, Nat.add_comm 1 n, run_add_of_next (n + 1) hbefore]
  exact run_succ_of_refused n ((step_eq_refused_iff _ _).mpr ⟨rfl, b, rest, rfl, hb⟩)

/-- Settles O37: progress of safe runs, the step that keeps them safe, and the end of the others. -/
theorem acceptedRunsCompleteAndOthersAreRefused : Obligations.AcceptedRunsCompleteAndOthersAreRefused := by
  unfold Obligations.AcceptedRunsCompleteAndOthersAreRefused
  refine ⟨fun s hs => ⟨_, run_of_safe hs⟩, fun s t => safe_step, ?refused⟩
  case refused =>
    intro s bs rest b n hs hbs hrst hcmd
    exact run_of_refused_beat n hs ((all_accepted_iff bs).mp hbs) (b.event_eq_refuse_iff.mpr ⟨hrst, hcmd⟩)

end Sys2Proof.Machine
end

section
/-! SUPPORT. The rule's `Step` and the machine: the block's step function gives the machine's step on each beat, and its fold
gives the machine's run (spec/70_reset_and_hazards.md R70, R78). -/

namespace Sys2Proof.Machine

/-- What the machine answers, the beats `rest` being still to come, when the block's function answers the given value. -/
def outcomeOfBlock (rest : List Beat) : Option Crc → Host.Outcome State Fault Refusal
  | some c => .next { crc := c, beats := rest }
  | none => .refused .reservedCommand

theorem blockStep_of_refuse {b : Beat} (c : Crc) (hb : b.event = .refuse) :
    blockStep c b.rst b.cmd b.din = none := by
  obtain ⟨hrst, hcmd⟩ := b.event_eq_refuse_iff.mp hb
  simp [blockStep, hrst, hcmd]

/-- On a beat that is not refused R70's function writes what the beat's event says. -/
theorem blockStep_of_event {b : Beat} (c : Crc) (hb : b.event ≠ .refuse) :
    blockStep c b.rst b.cmd b.din = some (b.event.write c) := by
  obtain ⟨m, d, rfl⟩ | ⟨d, rfl⟩ | ⟨d, rfl⟩ | ⟨d, rfl⟩ | ⟨d, rfl⟩ := b.kinds
  case inr.inr.inr.inr => exact absurd (Beat.event_reserved d) hb
  all_goals simp [blockStep]

/-- The machine's step, through decoder and meanings, is R70's function on the register. -/
theorem step_eq_blockStep (c : Crc) (b : Beat) (bs : List Beat) :
    step { crc := c, beats := b :: bs } = outcomeOfBlock bs (blockStep c b.rst b.cmd b.din) := by
  by_cases hb : b.event = .refuse
  · rw [blockStep_of_refuse c hb]
    exact (step_eq_refused_iff _ _).mpr ⟨rfl, b, bs, rfl, hb⟩
  · rw [blockStep_of_event c hb]
    exact step_of_event c b bs hb

theorem step_of_upd {s : State} {d : Byte} {bs : List Beat} (h : s.beats = ⟨false, 0b10#2, d⟩ :: bs) :
    step s = .next { crc := crcAStep s.crc d, beats := bs } := by
  rw [step_of_command h rfl, Beat.word, decode_upd, exec_upd]
  rfl

theorem step_of_reserved {s : State} {d : Byte} {bs : List Beat} (h : s.beats = ⟨false, 0b11#2, d⟩ :: bs) :
    step s = .refused .reservedCommand :=
  (step_eq_refused_iff s _).mpr ⟨rfl, _, bs, h, Beat.event_reserved d⟩

/-- Settles O6: the clauses are the five kinds of beat; the block's own function is the same case by case. -/
theorem stepFollowsTheCompleteStepRule : Obligations.StepFollowsTheCompleteStepRule := by
  unfold Obligations.StepFollowsTheCompleteStepRule
  refine ⟨?clauses, fun c r m d bs => step_eq_blockStep c ⟨r, m, d⟩ bs, ?resetIsInit, rfl, by decide, by decide⟩
  case clauses =>
    intro s b bs hs
    obtain ⟨c, d, rfl⟩ | ⟨d, rfl⟩ | ⟨d, rfl⟩ | ⟨d, rfl⟩ | ⟨d, rfl⟩ := b.kinds
    · exact step_of_reset hs
    · exact step_of_nop hs
    · exact step_of_preset hs (Beat.event_init d)
    · exact step_of_upd hs
    · exact step_of_reserved hs
  case resetIsInit =>
    intro c d d' v bs
    exact step_congr_event (by rw [Beat.event_reset, Beat.event_init]) v bs

/-- `Step` of R70 applied to each beat in order (R78); `none` from the first refused beat on. -/
def blockRun (c : Crc) (bs : List Beat) : Option Crc :=
  bs.foldlM (fun (v : Crc) (b : Beat) => blockStep v b.rst b.cmd b.din) c

theorem blockRun_cons (c : Crc) (b : Beat) (bs : List Beat) :
    blockRun c (b :: bs) = (blockStep c b.rst b.cmd b.din).bind (blockRun · bs) := rfl

theorem run_eq_blockRun (c : Crc) (bs rest : List Beat) :
    run bs.length { crc := c, beats := bs ++ rest } = outcomeOfBlock rest (blockRun c bs) := by
  induction bs generalizing c with
  | nil => rfl
  | cons b bs ih =>
    have hstep := step_eq_blockStep c b (bs ++ rest)
    rw [List.length_cons, List.cons_append, blockRun_cons]
    cases hblock : blockStep c b.rst b.cmd b.din with
    | none =>
      rw [hblock] at hstep
      exact run_succ_of_refused _ hstep
    | some v =>
      rw [hblock] at hstep
      exact (run_succ_of_next _ hstep).trans (ih v)

theorem head?_trace (n : Nat) (s : State) : (trace n s).head? = some (outputs s) := by
  cases n with
  | zero => rfl
  | succ n => rfl

theorem length_trace_of_run {n : Nat} {s t : State} (h : run n s = .next t) : (trace n s).length = n + 1 := by
  induction n generalizing s with
  | zero => rfl
  | succ n ih =>
    obtain ⟨u, hstep, hrun⟩ := run_succ_eq_next_iff.mp h
    rw [trace_succ_of_next n hstep, List.length_cons, ih hrun]

theorem getLast?_trace_of_run {n : Nat} {s t : State} (h : run n s = .next t) :
    (trace n s).getLast? = some (outputs t) := by
  induction n generalizing s with
  | zero => cases h; rfl
  | succ n ih =>
    obtain ⟨u, hstep, hrun⟩ := run_succ_eq_next_iff.mp h
    rw [trace_succ_of_next n hstep, List.getLast?_cons, ih hrun, Option.getD_some]

/-- Settles O36: the fold of the rule's step, and the trace of a run that ends. -/
theorem runAppliesTheStepRuleToEachBeat : Obligations.RunAppliesTheStepRuleToEachBeat := by
  unfold Obligations.RunAppliesTheStepRuleToEachBeat
  refine ⟨run_eq_blockRun, ?observed⟩
  case observed =>
    intro s t n hrun
    exact ⟨length_trace_of_run hrun, head?_trace n s, getLast?_trace_of_run hrun⟩

end Sys2Proof.Machine
end

section
/-! SUPPORT. Hazards of the host's own making: a forgotten INIT, a byte held over several beats; and where the invariant of
runs begins (spec/70_reset_and_hazards.md R70, R72, R75). -/

namespace Sys2Proof.Machine

/-- The fold goes on where the first message left the register (R56). -/
theorem crcA_append (m m' : List Byte) : crcA (m ++ m') = absorbAll (crcA m) m' :=
  absorbAll_append Config.crcAPreset m m'

/-- Settles O30: the UPDs go on from the register, which is the first message's CRC. -/
theorem missingInitJoinsTheMessages : Obligations.MissingInitJoinsTheMessages := by
  unfold Obligations.MissingInitJoinsTheMessages
  refine ⟨?joined, by decide, by decide, by decide⟩
  case joined =>
    intro s m m' bs rest hcrc hs hbytes
    rw [run_of_presentsBytes hs hbytes, hcrc, crcA_append]

theorem activeEvents_upd_cons (d : Byte) (bs : List Beat) :
    activeEvents (⟨false, 0b10#2, d⟩ :: bs) = .absorb d :: activeEvents bs := by
  simp [activeEvents]

/-- NOP and UPD beats with one byte held on `din` present that byte once per UPD beat (R75). -/
theorem presentsBytes_of_held_byte (d : Byte) (cmds : List CmdCode) (hcmds : ∀ c ∈ cmds, c = 0b00#2 ∨ c = 0b10#2) :
    presentsBytes (List.replicate (cmds.count 0b10#2) d) (cmds.map (fun c => ⟨false, c, d⟩)) = true := by
  rw [presentsBytes_iff]
  induction cmds with
  | nil => rfl
  | cons c cmds ih =>
    obtain ⟨hc, htail⟩ := List.forall_mem_cons.mp hcmds
    rw [List.map_cons]
    obtain rfl | rfl := hc
    · rw [List.count_cons_of_ne (by decide)]
      exact (activeEvents_nop [] d _).trans (ih htail)
    · rw [activeEvents_upd_cons, ih htail, List.count_cons_self, List.replicate_succ, List.map_cons]

/-- Settles O31: the beats present the held byte as often as there are UPDs among them. -/
theorem heldByteIsAbsorbedOncePerUpdBeat : Obligations.HeldByteIsAbsorbedOncePerUpdBeat := by
  unfold Obligations.HeldByteIsAbsorbedOncePerUpdBeat
  intro s d cmds rest hcmds hs
  have hrun := run_of_presentsBytes hs (presentsBytes_of_held_byte d cmds hcmds)
  rwa [List.length_map] at hrun

/-- Where no beat is done yet, the invariant is that the register holds the message's CRC. -/
theorem tracksMessage_start (m : List Byte) (bs : List Beat) : TracksMessage m bs { crc := crcA m, beats := bs } :=
  ⟨[], rfl, rfl, rfl⟩

/-- Settles O39: after reset the register holds the CRC of the empty message. -/
theorem tracksMessageAtReset : Obligations.TracksMessageAtReset := by
  unfold Obligations.TracksMessageAtReset
  exact ⟨tracksMessage_start [] [], tracksMessage_start⟩

end Sys2Proof.Machine
end

section
/-! SUPPORT. The encoder against the decoder: a command's word is the canonical word that decodes to it
(spec/30_encoding.md R31, R34, R38). -/

namespace Sys2Proof

theorem wellFormed_iff (i : Instr) : wellFormed i = true ↔ i ≠ .reserved := by
  cases i <;> simp [wellFormed]

theorem encode_upd (d : Byte) : encode (.upd d) = some (commandWord 0b10#2 d) :=
  congrArg some (updWord_eq d)

/-- Every command but the reserved one has a word (R38). -/
theorem exists_encode_iff (i : Instr) : (∃ w, encode i = some w) ↔ i ≠ .reserved := by
  cases i <;> simp [encode]

theorem canonical_commandWord_iff (c : CmdCode) (d : Byte) :
    canonical (commandWord c d) = true ↔ c = 0b10#2 ∨ (d = 0x00#8 ∧ c ≠ 0b11#2) := by
  simp [canonical]

theorem decode_canonical_of_encode {i : Instr} {w : CmdWord} (h : encode i = some w) :
    decode w = i ∧ canonical w = true := by
  cases i with
  | nop => cases h; decide
  | init => cases h; decide
  | upd d =>
    cases (encode_upd d).symm.trans h
    exact ⟨decode_upd d, (canonical_commandWord_iff _ d).mpr (.inl rfl)⟩
  | reserved => cases h

theorem encode_decode_of_canonical {w : CmdWord} (h : canonical w = true) : encode (decode w) = some w := by
  obtain ⟨c, d, rfl⟩ := exists_commandWord w
  obtain rfl | ⟨rfl, hc⟩ := (canonical_commandWord_iff c d).mp h
  · rw [decode_upd, encode_upd]
  · revert c
    decide

/-- The encoder's inversion: encoding undoes decoding on the canonical words, and on no others (R38). -/
theorem encode_eq_some_iff (i : Instr) (w : CmdWord) : encode i = some w ↔ decode w = i ∧ canonical w = true := by
  constructor
  · exact decode_canonical_of_encode
  · rintro ⟨rfl, hw⟩
    exact encode_decode_of_canonical hw

/-- Ten bits or more hold every command word (R30). -/
theorem decodeTableWord_toNat (w : CmdWord) {nbits : Nat} (hn : 10 ≤ nbits) :
    decodeTableWord nbits w.toNat = some (decode w) := by
  have hlow : w.toNat % 2 ^ nbits = w.toNat :=
    Nat.mod_eq_of_lt (w.isLt.trans_le (Nat.pow_le_pow_right (by decide) hn))
  rw [Machine.decodeTableWord_eq_some_iff, hlow, BitVec.ofNat_toNat, BitVec.setWidth_eq]
  exact ⟨w.isLt, rfl⟩

/-- Settles O3: both round trips are the encoder's inversion. -/
theorem decodeAndEncodeAgree : Obligations.DecodeAndEncodeAgree := by
  unfold Obligations.DecodeAndEncodeAgree
  refine ⟨fun d => ⟨decode_nop d, decode_init d, decode_upd d, decode_reserved d⟩, rfl, rfl, encode_upd,
    wellFormed_iff, ?hasWord, ?decodeEncode, ?encodeDecode, canonical_commandWord_iff⟩
  case hasWord =>
    intro i
    rw [wellFormed_iff, exists_encode_iff]
  case decodeEncode =>
    intro i w hi
    obtain ⟨rfl, hw⟩ := (encode_eq_some_iff i w).mp hi
    exact ⟨rfl, hw, fun _ hn => decodeTableWord_toNat w hn⟩
  case encodeDecode =>
    intro w
    rw [encode_eq_some_iff, and_iff_right rfl]

end Sys2Proof
end

section
/-! SUPPORT. A block to which no beat is presented (spec/60_exceptions.md R66; log entry 2). -/

namespace Sys2Proof.Machine

theorem run_of_no_beat {s : State} (h : s.beats = []) (n : Nat) : run n s = .next s := by
  induction n with
  | zero => rfl
  | succ n ih => rw [run_succ_of_next n (step_of_no_beat h), ih]

theorem trace_of_no_beat {s : State} (h : s.beats = []) (n : Nat) :
    trace n s = List.replicate (n + 1) (outputs s) := by
  induction n with
  | zero => rfl
  | succ n ih => rw [trace_succ_of_next n (step_of_no_beat h), ih, ← List.replicate_succ]

/-- Settles O8: each step answers the state it was given. -/
theorem stepWithoutABeatHoldsEverything : Obligations.StepWithoutABeatHoldsEverything := by
  unfold Obligations.StepWithoutABeatHoldsEverything
  intro s n h
  exact ⟨run_of_no_beat h n, trace_of_no_beat h n⟩

end Sys2Proof.Machine
end
